-- ==== Sys2Proof/Word.lean ====
section
/-! DEFINITION. The bit vectors of the arbiter SHA-1/HMAC core (spec `00_scope.md` R9: a word is 32 bits, a byte is 8
bits, every value is unsigned; `30_encoding.md` R80: a command word is 16 bits). -/

namespace Sys2Proof

/-- A word (R9). -/
abbrev Word := BitVec 32

/-- A byte (R9). -/
abbrev Byte := BitVec 8

/-- A command word, OP in bits 15..8 and ARG in bits 7..0 (R80). -/
abbrev CmdWord := BitVec 16

end Sys2Proof
end

