-- ==== Sys2Proof/Syntax.lean ====
section
/-! DEFINITION. The eleven commands (`30_encoding.md` R83, one constructor per row of `opcode_table.json`), their
formats (R82), and the assembler's statements and pseudo-instructions (R90 to R96). -/

namespace Sys2Proof

/-- The eleven commands (R83). A format-B operand is the data byte, a format-I operand the digest byte index (R81, R82). -/
inductive Instr where
  | nop
  | hInit
  | hAbsorb (x : Byte)
  | hFinal
  | hRead (i : Byte)
  | mInit
  | mKey (x : Byte)
  | mKeyEnd
  | mMsg (x : Byte)
  | mFinal
  | mRead (i : Byte)
  deriving DecidableEq, Repr

/-- The three formats (R82): no operand, a data byte, a digest byte index. -/
inductive Format where
  | n
  | b
  | i
  deriving DecidableEq, Repr

/-- The eleven mnemonics of the assembler (R90). -/
inductive Mnemonic where
  | nop | hInit | hAbsorb | hFinal | hRead
  | mInit | mKey | mKeyEnd | mMsg | mFinal | mRead
  deriving DecidableEq, Repr

/-- The format of each mnemonic (R83). -/
def Mnemonic.format : Mnemonic → Format
  | .nop => .n
  | .hInit => .n
  | .hAbsorb => .b
  | .hFinal => .n
  | .hRead => .i
  | .mInit => .n
  | .mKey => .b
  | .mKeyEnd => .n
  | .mMsg => .b
  | .mFinal => .n
  | .mRead => .i

/-- One assembler statement: a mnemonic and, perhaps, an operand value (R90). -/
structure Stmt where
  mnemonic : Mnemonic
  operand  : Option Nat
  deriving DecidableEq, Repr

/-- The mnemonic a command is written with (R90). -/
def Instr.mnemonic : Instr → Mnemonic
  | .nop => .nop
  | .hInit => .hInit
  | .hAbsorb _ => .hAbsorb
  | .hFinal => .hFinal
  | .hRead _ => .hRead
  | .mInit => .mInit
  | .mKey _ => .mKey
  | .mKeyEnd => .mKeyEnd
  | .mMsg _ => .mMsg
  | .mFinal => .mFinal
  | .mRead _ => .mRead

/-- A command's ARG byte; a format-N command has none (R82). -/
def Instr.operand : Instr → Option Byte
  | .nop => none
  | .hInit => none
  | .hAbsorb x => some x
  | .hFinal => none
  | .hRead i => some i
  | .mInit => none
  | .mKey x => some x
  | .mKeyEnd => none
  | .mMsg x => some x
  | .mFinal => none
  | .mRead i => some i

/-- The statement a command is written as (R90). -/
def Instr.toStmt (i : Instr) : Stmt := ⟨i.mnemonic, i.operand.map BitVec.toNat⟩

/-- The seven pseudo-instructions (R92 to R96): macros of the assembler, which the block never sees. -/
inductive Pseudo where
  | hAbsorbs (s : List Byte)
  | mMsgs (s : List Byte)
  | mKeys (k : List Byte)
  | hReadAll
  | mReadAll
  | hash (m : List Byte)
  | hmac (k m : List Byte)
  deriving DecidableEq, Repr

end Sys2Proof
end

