-- ==== Sys2Proof/WellFormed.lean ====
section
/-! DEFINITION. Well-formedness of an assembler statement (`30_encoding.md` R90) and of a command (R82). -/

namespace Sys2Proof

/-- "Format N takes no operand; writing one is a syntax error. Formats B and I take exactly one, with a value 0..255"
(R90). -/
def Stmt.wf (s : Stmt) : Bool :=
  match s.mnemonic.format, s.operand with
  | .n, none => true
  | .n, some _ => false
  | .b, some v => decide (v < 256)
  | .b, none => false
  | .i, some v => decide (v < 256)
  | .i, none => false

/-- A command is well formed when the statement it is written as is. Every data byte and every index decodes (R82), so
this holds of every `Instr`: the operand's type is the byte the encoding gives it. -/
def Instr.wf (i : Instr) : Bool := i.toStmt.wf

end Sys2Proof
end

