-- ==== Sys2Proof/Decode.lean ====
section
/-! DEFINITION. Decoding a command word (`30_encoding.md` R80, R83 to R86), total on all 2^16 words, and the encoder
written from the same opcode map. -/

namespace Sys2Proof

/-- OP, bits 15..8 of a command word (R80). -/
def opField (w : CmdWord) : Byte := w.extractLsb' 8 8

/-- ARG, bits 7..0 of a command word (R80). -/
def argField (w : CmdWord) : Byte := w.extractLsb' 0 8

/-- Why a word is ILLEGAL. The block records the same code, ILLEGAL, for both (`60_exceptions.md` R180). -/
inductive Reject where
  /-- one of the 245 reserved OP values (R85) -/
  | reservedOpcode
  /-- a format-N OP with ARG ≠ 0x00 (R86) -/
  | nonzeroArg
  deriving DecidableEq, Repr

/-- A format-N command is read only with ARG = 0x00 (R82, R86). -/
def noOperand (i : Instr) (arg : Byte) : Except Reject Instr :=
  if arg = 0x00#8 then .ok i else .error .nonzeroArg

/-- The opcode map, on the two fields of a word (R84). -/
def decodeFields (op arg : Byte) : Except Reject Instr :=
  match op.toNat with
  | 0x00 => noOperand .nop arg
  | 0x01 => noOperand .hInit arg
  | 0x02 => .ok (.hAbsorb arg)
  | 0x03 => noOperand .hFinal arg
  | 0x04 => .ok (.hRead arg)
  | 0x11 => noOperand .mInit arg
  | 0x12 => .ok (.mKey arg)
  | 0x13 => noOperand .mKeyEnd arg
  | 0x14 => .ok (.mMsg arg)
  | 0x15 => noOperand .mFinal arg
  | 0x16 => .ok (.mRead arg)
  | _ => .error .reservedOpcode

/-- The decode function: a command, or ILLEGAL with its reason (R84). It does not depend on the state. -/
def decode (w : CmdWord) : Except Reject Instr := decodeFields (opField w) (argField w)

/-- The OP value of each mnemonic (R83). -/
def opcode : Mnemonic → Byte
  | .nop => 0x00#8
  | .hInit => 0x01#8
  | .hAbsorb => 0x02#8
  | .hFinal => 0x03#8
  | .hRead => 0x04#8
  | .mInit => 0x11#8
  | .mKey => 0x12#8
  | .mKeyEnd => 0x13#8
  | .mMsg => 0x14#8
  | .mFinal => 0x15#8
  | .mRead => 0x16#8

/-- A word from its two fields (R80). -/
def packWord (op arg : Byte) : CmdWord := op.setWidth 16 <<< 8 ||| arg.setWidth 16

/-- The word of a command: its OP, and its operand or 0x00 as ARG (R80, R82, R83). -/
def encode (i : Instr) : CmdWord := packWord (opcode i.mnemonic) (i.operand.getD 0x00#8)

/-- The command a well-formed statement stands for; none is a syntax error (R90). -/
def assembleStmt (s : Stmt) : Option Instr :=
  match s.mnemonic, s.operand with
  | .nop, none => some .nop
  | .hInit, none => some .hInit
  | .hAbsorb, some v => if v < 256 then some (.hAbsorb (BitVec.ofNat 8 v)) else none
  | .hFinal, none => some .hFinal
  | .hRead, some v => if v < 256 then some (.hRead (BitVec.ofNat 8 v)) else none
  | .mInit, none => some .mInit
  | .mKey, some v => if v < 256 then some (.mKey (BitVec.ofNat 8 v)) else none
  | .mKeyEnd, none => some .mKeyEnd
  | .mMsg, some v => if v < 256 then some (.mMsg (BitVec.ofNat 8 v)) else none
  | .mFinal, none => some .mFinal
  | .mRead, some v => if v < 256 then some (.mRead (BitVec.ofNat 8 v)) else none
  | _, _ => none

/-- The command the decoder reads from the low `nbits` bits of `w`, numbered as the opcode table numbers them: bit 0 is
the least significant bit of the one command word. There is one length, 16 bits (R89), so the bits above `nbits` are 0. -/
def decodeTableWord (nbits w : Nat) : Option Instr :=
  match decode (BitVec.ofNat 16 (w % 2 ^ nbits)) with
  | .ok i => some i
  | .error _ => none

end Sys2Proof
end

