-- ==== Sys2Proof/Config.lean ====
section
/-! DEFINITION. What one implementation fixes and the values the spec leaves open. Each constant below has NO BODY, so
no proof can see what it is. A free value depends on the arguments named and not on which instance of the block takes it
(DESIGN CHOICE, log entry 17). The numbered sizes of `00_scope.md` R6 are in the types of `Machine/State.lean`. -/

namespace Sys2Proof.Config

/-- What a 32-bit transient register holds where the spec leaves its value unspecified: draw number, then which register
(0..4 are A..E, 5 + t is W[t]). `10_state.md` R25, R26, R42; `93_implementation_defined.md` I5; log entry 2. -/
opaque freeWord : Nat → Nat → Word

/-- What the round counter T holds where the spec leaves its value unspecified (`10_state.md` R27, R42; I5; log entry 2). -/
opaque freeRound : Nat → BitVec 7

/-- What byte i of IDIG holds outside M.FINAL: draw number, then i (`10_state.md` R34, R42; I6; log entry 2). -/
opaque freeByte : Nat → Nat → Byte

/-- The word the block accepts from a host that changes `cmd_word` or drops `cmd_valid` before acceptance
(`70_reset_and_hazards.md` R203; I10; D33; log entry 8). -/
opaque freeCommandWord : Nat → CmdWord

/-- One less than the latency of a command: its OP byte, then the number of the acceptance (`00_scope.md` R8,
`70_reset_and_hazards.md` R206, I20; log entry 10). It may differ from one acceptance to the next, so no claim of
constant time can be proved. -/
opaque extraLatency : Byte → Nat → Nat

/-- LAT_CMD(op), at least one cycle (`00_scope.md` R8, `20_memory.md` R58). -/
def latCmd (op : Byte) (acceptance : Nat) : Nat := extraLatency op acceptance + 1

/-- One less than the number of instances of the block on a device (`00_scope.md` R8, I18; log entry 11). -/
opaque extraInstances : Nat

/-- N_INST, at least one (`60_exceptions.md` R190, `92_eei_decisions.md` D21). -/
def nInst : Nat := extraInstances + 1

end Sys2Proof.Config
end

