-- ==== Sys2Proof/Machine/State.lean ====
section
/-! DEFINITION. The state of one block (`10_state.md`), its host's command stream and output signals (`20_memory.md`
R57, R58), the reasons a step could stop, and the state after reset (R42). -/

namespace Sys2Proof.Machine

/-- EPHASE, the engine phase (R24). The reserved encoding 3 is "never held", so it has no constructor (log entry 14). -/
inductive EPhase where
  | idle
  | absorb
  | done
  deriving DecidableEq, Repr

/-- MPHASE, the controller phase (R30). -/
inductive MPhase where
  | idle
  | key
  | msg
  | done
  deriving DecidableEq, Repr

/-- SESSION, which part owns the engine (R35). The reserved encoding 3 is "never held". -/
inductive Session where
  | none
  | hash
  | hmac
  deriving DecidableEq, Repr

/-- ERRCODE (R36; `60_exceptions.md` R180). The reserved codes 6..15 are "never recorded". -/
inductive ErrCode where
  | none
  | illegal
  | session
  | phase
  | index
  | length
  deriving DecidableEq, Repr

/-- The working variables of a compression (R25). -/
structure WorkVars where
  a : Word
  b : Word
  c : Word
  d : Word
  e : Word
  deriving DecidableEq, Repr

/-- The transient registers of the compression datapath: A..E (R25), W[0..79] (R26) and T (R27). -/
structure Datapath where
  wv : WorkVars
  w  : Vector Word 80
  t  : BitVec 7
  deriving DecidableEq, Repr

/-- What the host does next at the interface of `20_memory.md` R58, one entry for each transaction or idle edge. -/
inductive HostEvent where
  /-- offer this command word until it is accepted, and wait for its completion (R57, R203) -/
  | command (w : CmdWord)
  /-- offer a word and break duty 1 of R203 before it is accepted: the accepted word is undefined (D33, I10) -/
  | unstable
  /-- a rising edge with `cmd_valid` = 0 and `rst` = 0 -/
  | idle
  /-- a rising edge with `rst` = 1 (R200) -/
  | reset
  deriving DecidableEq, Repr

/-- The state of one block. There is no memory and no address space (`20_memory.md` R50; log entry 13). -/
structure State where
  /-- H[0..4], the accumulator words (R20) -/
  h : Vector Word 5
  /-- BUF[0..63], the pending-input buffer (R22) -/
  buf : Vector Byte 64
  /-- CNT, the buffer count (R23) -/
  cnt : BitVec 6
  /-- BITLEN, the total-bits counter (R21) -/
  bitlen : BitVec 64
  /-- EPHASE (R24) -/
  ephase : EPhase
  /-- A..E, W and T (R25 to R27) -/
  dp : Datapath
  /-- MPHASE (R30) -/
  mphase : MPhase
  /-- KBUF[0..63], the key buffer (R31) -/
  kbuf : Vector Byte 64
  /-- KLEN, the short-key count (R32) -/
  klen : BitVec 7
  /-- LONGKEY (R33) -/
  longkey : Bool
  /-- IDIG[0..19], the inner digest (R34) -/
  idig : Vector Byte 20
  /-- SESSION (R35) -/
  session : Session
  /-- FAULT (R36) -/
  fault : Bool
  /-- ERRCODE (R36) -/
  errcode : ErrCode
  /-- RSP, the response byte (R37), which the output `rsp_data` shows -/
  rsp : Byte
  /-- the output `cmd_ready` (`20_memory.md` R58) -/
  cmdReady : Bool
  /-- the output `rsp_valid`, the completion pulse (`20_memory.md` R58) -/
  rspValid : Bool
  /-- the host's command stream, next event first: "The host's command stream is the program" (R40) -/
  host : List HostEvent
  /-- the model's own: the number of the next free value (log entry 2) -/
  draws : Nat
  deriving DecidableEq, Repr

/-- Why the machine could stop. It has NO constructor: the spec gives every word in every state a next state, an illegal
or misused command included, whose fault is recorded in FAULT and ERRCODE (`60_exceptions.md` R183), and that is safe
because nothing the hardware does is left out by a stop. -/
inductive Fault : Type
  deriving DecidableEq, Repr

/-- Why an instruction could be refused. -/
inductive Refusal where
  /-- raised only by an arm of `exec` for an instruction that has no meaning yet (safe: nothing is claimed of it); in
  this model no arm raises it -/
  | notModelled (mnemonic : String)
  deriving DecidableEq, Repr

/-- The outcome of a step or of a command. -/
abbrev Result := Host.Outcome State Fault Refusal

/-- The state at an edge with `rst` = 1: the reset values of R42, and the outputs of `70_reset_and_hazards.md` R200.
The registers that R42 calls "unspecified" (A..E, W, T, IDIG) are zero HERE by DESIGN CHOICE (log entry 3); a reset the
host asserts leaves them free (`resetBlock`). The host offers nothing yet (DESIGN CHOICE, log entry 1). -/
def State.reset : State where
  h := Vector.replicate 5 0x00000000#32
  buf := Vector.replicate 64 0x00#8
  cnt := 0#6
  bitlen := 0#64
  ephase := .idle
  dp := ⟨⟨0#32, 0#32, 0#32, 0#32, 0#32⟩, Vector.replicate 80 0#32, 0#7⟩
  mphase := .idle
  kbuf := Vector.replicate 64 0x00#8
  klen := 0#7
  longkey := false
  idig := Vector.replicate 20 0x00#8
  session := .none
  fault := false
  errcode := .none
  rsp := 0x00#8
  cmdReady := false
  rspValid := false
  host := []
  draws := 0

end Sys2Proof.Machine
end

