-- ==== Sys2Proof/Machine/Flags.lean ====
section
/-! DEFINITION. STATUS and the encodings of its fields (`10_state.md` R24, R30, R35, R36, R38, `60_exceptions.md` R180).
The block's only flag is STATUS.FAULT (R41). -/

namespace Sys2Proof.Machine

/-- The 2-bit encoding of SESSION (R35). -/
def sessionBits : Session → BitVec 2
  | .none => 0
  | .hash => 1
  | .hmac => 2

/-- The 2-bit encoding of EPHASE (R24). -/
def ephaseBits : EPhase → BitVec 2
  | .idle => 0
  | .absorb => 1
  | .done => 2

/-- The 2-bit encoding of MPHASE (R30). -/
def mphaseBits : MPhase → BitVec 2
  | .idle => 0
  | .key => 1
  | .msg => 2
  | .done => 3

/-- The 4-bit encoding of ERRCODE (R180). -/
def errcodeBits : ErrCode → BitVec 4
  | .none => 0
  | .illegal => 1
  | .session => 2
  | .phase => 3
  | .index => 4
  | .length => 5

/-- `STATUS = zext_16(SESSION) OR (EPHASE << 2) OR (MPHASE << 4) OR (FAULT << 7) OR (ERRCODE << 8)` (R38). -/
def State.status (s : State) : BitVec 16 :=
  (sessionBits s.session).setWidth 16
    ||| (ephaseBits s.ephase).setWidth 16 <<< 2
    ||| (mphaseBits s.mphase).setWidth 16 <<< 4
    ||| (BitVec.ofBool s.fault).setWidth 16 <<< 7
    ||| (errcodeBits s.errcode).setWidth 16 <<< 8

/-- The four output signals of the block (`20_memory.md` R58). -/
structure Outputs where
  cmdReady : Bool
  rspValid : Bool
  rspData  : Byte
  status   : BitVec 16
  deriving DecidableEq, Repr

/-- What the block drives on its outputs (`20_memory.md` R58). -/
def State.outputs (s : State) : Outputs := ⟨s.cmdReady, s.rspValid, s.rsp, s.status⟩

end Sys2Proof.Machine
end

