-- ==== Sys2Proof/Machine/Operands.lean ====
section
/-! DEFINITION. Bytes and words: reading and writing an element of a register array, packing bytes into words and words
into bytes (`00_scope.md` R11, `20_memory.md` R51, R53), and the operand forms of a command (`30_encoding.md` R81, R87). -/

namespace Sys2Proof.Machine

/-- Element i of a register array. No rule reads outside an array; there the model answers zero. -/
def peek {w n : Nat} (v : Vector (BitVec w) n) (i : Nat) : BitVec w :=
  if h : i < n then v[i] else 0#w

/-- A register array with element i written. No rule writes outside an array; there nothing is written. -/
def poke {w n : Nat} (v : Vector (BitVec w) n) (i : Nat) (x : BitVec w) : Vector (BitVec w) n :=
  if h : i < n then v.set i x else v

/-- "for j in lo..lo+count−1: v[j] <- x" (R12). -/
def fill {w n : Nat} (v : Vector (BitVec w) n) (lo : Nat) (x : BitVec w) : Nat → Vector (BitVec w) n
  | 0 => v
  | count + 1 => fill (poke v lo x) (lo + 1) x count

/-- 64 bytes, all 0x00. -/
def zeroBytes : Vector Byte 64 := Vector.replicate 64 0x00#8

/-- BE32: four bytes into a word, most significant first (R11). -/
def be32 (b0 b1 b2 b3 : Byte) : Word :=
  b0.setWidth 32 <<< 24 ||| b1.setWidth 32 <<< 16 ||| b2.setWidth 32 <<< 8 ||| b3.setWidth 32

/-- `byte_k(w) = w[31−8k : 24−8k]`, for k in 0..3 (R11). -/
def byteOfWord (k : Nat) (w : Word) : Byte := w.extractLsb' (24 - 8 * k) 8

/-- `L[63−8j : 56−8j]`, for j in 0..7: byte j of the big-endian length field (`20_memory.md` R53). -/
def byteOfLength (j : Nat) (l : BitVec 64) : Byte := l.extractLsb' (56 - 8 * j) 8

/-- `DBYTE(i) = byte_(i mod 4)(H[i div 4])`, for i in 0..19 (`41_hash_commands.md` R133). -/
def digestByte (h : Vector Word 5) (i : Nat) : Byte := byteOfWord (i % 4) (peek h (i / 4))

/-- DBYTE(0) ++ … ++ DBYTE(19) (`41_hash_commands.md` R133). -/
def digest (h : Vector Word 5) : Vector Byte 20 := Vector.ofFn fun i => digestByte h i.val

/-- A format-I operand names a digest byte when, read as an unsigned number, it is below 20 (`30_encoding.md` R81, R87). -/
def indexInRange (i : Byte) : Bool := decide (i.toNat < 20)

/-- The bytes of KBUF, each XORed with a pad byte, in order (`42_hmac_commands.md` R151). -/
def padBytes (kbuf : Vector Byte 64) (pad : Byte) : List Byte := kbuf.toList.map fun k => k ^^^ pad

/-- IPAD_BYTE (`10_state.md` R29). -/
def ipadByte : Byte := 0x36#8

/-- OPAD_BYTE (`10_state.md` R29). -/
def opadByte : Byte := 0x5C#8

end Sys2Proof.Machine
end

