-- ==== Sys2Proof/Machine/Ops.lean ====
section
/-! DEFINITION. The operations every command shares: responding, taking a fault (`60_exceptions.md` R183), being ignored
while faulted (R184), leaving the fault by reset (R185, `70_reset_and_hazards.md` R200), an idle edge, and completion. -/

namespace Sys2Proof.Machine

/-- `rsp <- v` (`00_scope.md` R12, `10_state.md` R37). -/
def respond (v : Byte) (s : State) : State := { s with rsp := v }

/-- Fault entry, from the state BEFORE the command: FAULT <- 1, ERRCODE <- code, rsp <- 0x00, and nothing else
(`60_exceptions.md` R183). -/
def raiseFault (code : ErrCode) (s : State) : State :=
  { s with fault := true, errcode := code, rsp := 0x00#8 }

/-- A command accepted while FAULT = 1 changes nothing but rsp <- 0x00 (`60_exceptions.md` R184). -/
def ignoreCommand (s : State) : State := { s with rsp := 0x00#8 }

/-- One command as an atomic transaction (`20_memory.md` R52): ignored while FAULT = 1 (R184); otherwise its body runs,
and a fault of the body discards every write the body made (R183). -/
def runCommand (body : State → Except ErrCode State) (s : State) : Result :=
  if s.fault then .next (ignoreCommand s)
  else
    match body s with
    | .ok t => .next t
    | .error code => .next (raiseFault code s)

/-- A word that decodes to no command raises Fault(ILLEGAL) before any other check (`30_encoding.md` R84,
`60_exceptions.md` R180, R181). -/
def execIllegal (s : State) : Result := runCommand (fun _ => .error .illegal) s

/-- The transient datapath registers where the spec leaves them unspecified (`10_state.md` R25 to R27; log entry 2). They
depend on the draw number alone, not on the instance: DESIGN CHOICE (log entry 17). -/
def freeDatapath (draw : Nat) : Datapath where
  wv := ⟨Config.freeWord draw 0, Config.freeWord draw 1, Config.freeWord draw 2, Config.freeWord draw 3,
    Config.freeWord draw 4⟩
  w := Vector.ofFn fun t => Config.freeWord draw (5 + t.val)
  t := Config.freeRound draw

/-- IDIG where the spec leaves it unspecified (`10_state.md` R34; log entry 2), by the draw number alone (log entry 17). -/
def freeInnerDigest (draw : Nat) : Vector Byte 20 := Vector.ofFn fun i => Config.freeByte draw i.val

/-- An edge with `rst` = 1 (`70_reset_and_hazards.md` R200): every register takes its value of `10_state.md` R42, the ones
R42 calls unspecified take free values (log entry 7), and `cmd_ready` and `rsp_valid` are 0. It is the only way out of a
fault (`60_exceptions.md` R185). -/
def resetBlock (s : State) : State :=
  { State.reset with
    dp := freeDatapath s.draws
    idig := freeInnerDigest s.draws
    host := s.host
    draws := s.draws + 1 }

/-- An edge with `rst` = 0 and no command accepted: the state holds, the one-cycle `rsp_valid` pulse is over, and
`cmd_ready` is 1 (`60_exceptions.md` R192, `20_memory.md` R58, `70_reset_and_hazards.md` R200). -/
def idleEdge (s : State) : State := { s with cmdReady := true, rspValid := false }

/-- Completion of a command: `rsp_valid` is 1 and `cmd_ready` returns to 1 (`20_memory.md` R58). -/
def markComplete (s : State) : State := { s with cmdReady := true, rspValid := true }

/-- Completion of whatever a command answered. -/
def completed : Result → Result
  | .next s => .next (markComplete s)
  | .fault r => .fault r
  | .refused r => .refused r

end Sys2Proof.Machine
end

