-- ==== Sys2Proof/Machine/Compression.lean ====
section
/-! DEFINITION. The compression datapath (`40_compression.md`): the rotation, the round constants, the mixing functions,
the message schedule, the rounds, the state update, the transform as a pure function (R106), the same transform on the
registers A..E, W and T, and the 16-word window (R107). -/

namespace Sys2Proof.Machine

/-- `ROTL(a, n) = ((a << n) OR (a >> (32 − n)))[31:0]`, for 0 < n < 32 (`00_scope.md` R10). PRESUMED: the formula is "from
general knowledge, not in source" (log entry 6). -/
def rotl (a : Word) (n : Nat) : Word := a <<< n ||| a >>> (32 - n)

/-- K_t, the constant of round t (R100). PRESUMED: the four values and their order are "from general knowledge, not in
source" (log entry 5). -/
def roundConstant (t : Nat) : Word :=
  if t < 20 then 0x5A827999#32
  else if t < 40 then 0x6ED9EBA1#32
  else if t < 60 then 0x8F1BBCDC#32
  else 0xCA62C1D6#32

/-- f_t, the mixing function of round t (R101). -/
def mix (t : Nat) (b c d : Word) : Word :=
  if t < 20 then (b &&& c) ||| (~~~b &&& d)
  else if t < 40 then b ^^^ c ^^^ d
  else if t < 60 then (b &&& c) ||| (b &&& d) ||| (c &&& d)
  else b ^^^ c ^^^ d

/-- The word of the block that W[t] is for t in 0..15 (R102, `20_memory.md` R51). -/
def blockWord (block : Vector Byte 64) (t : Nat) : Word :=
  be32 (peek block (4 * t)) (peek block (4 * t + 1)) (peek block (4 * t + 2)) (peek block (4 * t + 3))

/-- `W[t] <- ROTL(W[t-3] XOR W[t-8] XOR W[t-14] XOR W[t-16], 1)`, for t in 16..79 (R102). -/
def scheduleStep (w : Vector Word 80) (t : Nat) : Vector Word 80 :=
  poke w t (rotl (peek w (t - 3) ^^^ peek w (t - 8) ^^^ peek w (t - 14) ^^^ peek w (t - 16)) 1)

/-- The message schedule W[0..79] of a block (R102). -/
def schedule (block : Vector Byte 64) : Vector Word 80 :=
  (List.range' 16 64).foldl scheduleStep
    (Vector.ofFn fun t => if t.val < 16 then blockWord block t.val else 0#32)

/-- One round (R103); each + is modulo 2^32. -/
def roundStep (t : Nat) (v : WorkVars) (wt : Word) : WorkVars where
  a := rotl v.a 5 + mix t v.b v.c v.d + v.e + roundConstant t + wt
  b := v.a
  c := rotl v.b 30
  d := v.c
  e := v.d

/-- The working variables a compression starts from (R104). -/
def loadVars (h : Vector Word 5) : WorkVars := ⟨peek h 0, peek h 1, peek h 2, peek h 3, peek h 4⟩

/-- The state update after round 79, each addition modulo 2^32 (R105). -/
def stateUpdate (h : Vector Word 5) (v : WorkVars) : Vector Word 5 :=
  #v[peek h 0 + v.a, peek h 1 + v.b, peek h 2 + v.c, peek h 3 + v.d, peek h 4 + v.e]

/-- `compress(H, block)`, the compression transform as a pure function (R106). -/
def compress (h : Vector Word 5) (block : Vector Byte 64) : Vector Word 5 :=
  stateUpdate h
    ((List.range 80).foldl (fun v t => roundStep t v (peek (schedule block) t)) (loadVars h))

/-- The datapath registers at the start of a compression: A..E from H, W from the block, T = 0 (`10_state.md` R25 to
R27, R106). -/
def loadDatapath (h : Vector Word 5) (block : Vector Byte 64) : Datapath := ⟨loadVars h, schedule block, 0#7⟩

/-- Round t on the registers: T selects f_t, K_t and W[T] (`10_state.md` R27). -/
def datapathRound (dp : Datapath) (t : Nat) : Datapath :=
  { dp with
    t := BitVec.ofNat 7 t
    wv := roundStep (BitVec.ofNat 7 t).toNat dp.wv (peek dp.w (BitVec.ofNat 7 t).toNat) }

/-- The 80 rounds on the registers, in order (R104). -/
def runRounds (dp : Datapath) : Datapath := (List.range 80).foldl datapathRound dp

/-- `H <- compress(H, BUF)` on the registers (R106, `41_hash_commands.md` R131, R132). Afterwards A..E, W and T are
unspecified (`10_state.md` R25 to R27): free values (log entry 2). -/
def compressBuffer (s : State) : State :=
  { s with
    h := stateUpdate s.h (runRounds (loadDatapath s.h s.buf)).wv
    dp := freeDatapath s.draws
    draws := s.draws + 1 }

/-- The 16-word window M[0..15] of R107. -/
abbrev Window := Vector Word 16

/-- M[t] = W[t] for t < 16 (R107). -/
def loadWindow (block : Vector Byte 64) : Window := Vector.ofFn fun t => blockWord block t.val

/-- "for t ≥ 16 it computes M[t mod 16] <- ROTL(…, 1) just before round t, and uses that value" (R107). -/
def windowStep (m : Window) (t : Nat) : Window :=
  if t < 16 then m
  else
    poke m (t % 16)
      (rotl (peek m ((t - 3) % 16) ^^^ peek m ((t - 8) % 16) ^^^ peek m ((t - 14) % 16) ^^^ peek m (t % 16)) 1)

/-- One round of the windowed datapath (R107). -/
def windowRound (p : Window × WorkVars) (t : Nat) : Window × WorkVars :=
  (windowStep p.1 t, roundStep t p.2 (peek (windowStep p.1 t) (t % 16)))

/-- The compression transform with the 16-word window in place of W[0..79] (R107). -/
def compressWindowed (h : Vector Word 5) (block : Vector Byte 64) : Vector Word 5 :=
  stateUpdate h ((List.range 80).foldl windowRound (loadWindow block, loadVars h)).2

end Sys2Proof.Machine
end

