-- ==== Sys2Proof/Machine/Engine.lean ====
section
/-! DEFINITION. The hash engine's micro-operations E_INIT, E_ABSORB and E_FINAL (`41_hash_commands.md` R130 to R132),
which the commands of both parts are built from. The bytes of BUF behind CNT keep what these last wrote there, which is a
DESIGN CHOICE (log entry 4). -/

namespace Sys2Proof.Machine

/-- IV[0..4] (`10_state.md` R28). -/
def initialH : Vector Word 5 := #v[0x67452301#32, 0xEFCDAB89#32, 0x98BADCFE#32, 0x10325476#32, 0xC3D2E1F0#32]

/-- 2^64 − 512: the value of BITLEN at which the 64th byte of a block would make the bit length 2^64 (R131). -/
def lastBlockBits : BitVec 64 := 0xFFFFFFFFFFFFFE00#64

/-- E_INIT (R130). -/
def eInit (s : State) : State :=
  { s with h := initialH, buf := zeroBytes, cnt := 0#6, bitlen := 0#64, ephase := .absorb }

/-- E_ABSORB(x) (R131). CNT + 1 is an unbounded number in the comparison with 64. -/
def eAbsorb (x : Byte) (s : State) : Except ErrCode State :=
  if s.cnt.toNat = 63 ∧ s.bitlen = lastBlockBits then .error .length
  else if s.cnt.toNat + 1 = 64 then
    let t := compressBuffer { s with buf := poke s.buf s.cnt.toNat x }
    .ok { t with bitlen := t.bitlen + 512#64, cnt := 0#6 }
  else
    .ok { s with buf := poke s.buf s.cnt.toNat x, cnt := s.cnt + 1#6 }

/-- "for j in …: E_ABSORB(s[j])", the bytes in order; a fault of one of them is the fault of the whole. -/
def absorbAll : List Byte → State → Except ErrCode State
  | [], s => .ok s
  | x :: xs, s =>
    match eAbsorb x s with
    | .ok t => absorbAll xs t
    | .error code => .error code

/-- `for j in 0..7: BUF[56+j] <- L[63−8j : 56−8j]` (R132, `20_memory.md` R53). -/
def putLength (buf : Vector Byte 64) (l : BitVec 64) : Vector Byte 64 :=
  (List.range 8).foldl (fun b j => poke b (56 + j) (byteOfLength j l)) buf

/-- The message's bit length at finalisation, `BITLEN + 8 × CNT` (R132, `10_state.md` R21), modulo 2^64, which differs
from the unbounded sum only in states no run reaches (log entry 15). -/
def messageBits (s : State) : BitVec 64 := s.bitlen + 8#64 * s.cnt.setWidth 64

/-- E_FINAL up to the length field: 0x80, the zero padding and, when the length does not fit, the compression of a first
block (R132). -/
def padBuffer (s : State) : State :=
  let marked := poke s.buf s.cnt.toNat 0x80#8
  if s.cnt.toNat ≤ 55 then
    { s with buf := fill marked (s.cnt.toNat + 1) 0x00#8 (55 - s.cnt.toNat) }
  else
    let t := compressBuffer { s with buf := fill marked (s.cnt.toNat + 1) 0x00#8 (63 - s.cnt.toNat) }
    { t with buf := fill t.buf 0 0x00#8 56 }

/-- E_FINAL (R132). -/
def eFinal (s : State) : State :=
  let padded := padBuffer s
  let t := compressBuffer { padded with buf := putLength padded.buf (messageBits s) }
  { t with bitlen := messageBits s, cnt := 0#6, ephase := .done }

end Sys2Proof.Machine
end

