-- ==== Sys2Proof/Machine/Hash.lean ====
section
/-! DEFINITION. The five hash-engine commands (`41_hash_commands.md` R134 to R138). Each meaning is one atomic
transaction (`runCommand`) over the body the spec's pseudocode gives. -/

namespace Sys2Proof.Machine

/-- NOP (R134). -/
def nopBody (s : State) : Except ErrCode State := .ok (respond 0x00#8 s)

/-- H.INIT (R135). -/
def hInitBody (s : State) : Except ErrCode State :=
  .ok (respond 0x00#8
    (eInit { s with session := .hash, mphase := .idle, kbuf := zeroBytes, klen := 0#7, longkey := false }))

/-- H.ABSORB x (R136). -/
def hAbsorbBody (x : Byte) (s : State) : Except ErrCode State :=
  if s.session ≠ .hash then .error .session
  else if s.ephase ≠ .absorb then .error .phase
  else (eAbsorb x s).map (respond 0x00#8)

/-- H.FINAL (R137). -/
def hFinalBody (s : State) : Except ErrCode State :=
  if s.session ≠ .hash then .error .session
  else if s.ephase ≠ .absorb then .error .phase
  else .ok (respond 0x00#8 (eFinal s))

/-- H.READ i (R138). -/
def hReadBody (i : Byte) (s : State) : Except ErrCode State :=
  if s.session ≠ .hash then .error .session
  else if s.ephase ≠ .done then .error .phase
  else if indexInRange i = false then .error .index
  else .ok (respond (digestByte s.h i.toNat) s)

/-- NOP as a command (R134, R184). -/
def execNop (s : State) : Result := runCommand nopBody s

/-- H.INIT as a command (R135, R184). -/
def execHInit (s : State) : Result := runCommand hInitBody s

/-- H.ABSORB as a command (R136, R183, R184). -/
def execHAbsorb (x : Byte) (s : State) : Result := runCommand (hAbsorbBody x) s

/-- H.FINAL as a command (R137, R183, R184). -/
def execHFinal (s : State) : Result := runCommand hFinalBody s

/-- H.READ as a command (R138, R183, R184). -/
def execHRead (i : Byte) (s : State) : Result := runCommand (hReadBody i) s

end Sys2Proof.Machine
end

