-- ==== Sys2Proof/Machine/Hmac.lean ====
section
/-! DEFINITION. The six HMAC-controller commands (`42_hmac_commands.md` R153 to R158), each one atomic transaction over
the body the spec's pseudocode gives. -/

namespace Sys2Proof.Machine

/-- M.INIT (R153). -/
def mInitBody (s : State) : Except ErrCode State :=
  .ok (respond 0x00#8
    { s with
      session := .hmac, mphase := .key, kbuf := zeroBytes, klen := 0#7, longkey := false
      h := Vector.replicate 5 0x00000000#32, buf := zeroBytes, cnt := 0#6, bitlen := 0#64, ephase := .idle })

/-- A key byte that still fits: keep it (R154, first branch). -/
def keepKeyByte (x : Byte) (s : State) : State :=
  { s with kbuf := poke s.kbuf s.klen.toNat x, klen := s.klen + 1#7 }

/-- Key byte 65: the engine starts hashing the key with the 64 held bytes and this one, and KBUF is wiped (R154, second
branch). -/
def startKeyHash (x : Byte) (s : State) : Except ErrCode State :=
  match absorbAll s.kbuf.toList (eInit s) with
  | .error code => .error code
  | .ok t =>
    match eAbsorb x t with
    | .error code => .error code
    | .ok u => .ok { u with kbuf := zeroBytes, longkey := true }

/-- M.KEY x (R154). -/
def mKeyBody (x : Byte) (s : State) : Except ErrCode State :=
  if s.session ≠ .hmac then .error .session
  else if s.mphase ≠ .key then .error .phase
  else if s.longkey = false ∧ s.klen.toNat < 64 then .ok (respond 0x00#8 (keepKeyByte x s))
  else if s.longkey = false then (startKeyHash x s).map (respond 0x00#8)
  else (eAbsorb x s).map (respond 0x00#8)

/-- K0 <- Hash(key) ++ 44 × 0x00, when the key was long (R155). -/
def normaliseKey (s : State) : State :=
  if s.longkey then
    let t := eFinal s
    { t with kbuf := Vector.ofFn fun i => if i.val < 20 then digestByte t.h i.val else 0x00#8 }
  else s

/-- M.KEYEND (R155). -/
def mKeyEndBody (s : State) : Except ErrCode State :=
  if s.session ≠ .hmac then .error .session
  else if s.mphase ≠ .key then .error .phase
  else
    let t := { normaliseKey s with klen := 0#7, longkey := false }
    match absorbAll (padBytes t.kbuf ipadByte) (eInit t) with
    | .error code => .error code
    | .ok u => .ok (respond 0x00#8 { u with mphase := .msg })

/-- M.MSG x (R156). -/
def mMsgBody (x : Byte) (s : State) : Except ErrCode State :=
  if s.session ≠ .hmac then .error .session
  else if s.mphase ≠ .msg then .error .phase
  else (eAbsorb x s).map (respond 0x00#8)

/-- The first invocation's end: E_FINAL, then IDIG[i] <- DBYTE(i) (R157). -/
def finishInner (s : State) : State :=
  let t := eFinal s
  { t with idig := digest t.h }

/-- The second invocation: outer pad, inner digest, E_FINAL (R157). -/
def runOuter (s : State) : Except ErrCode State :=
  match absorbAll (padBytes s.kbuf opadByte) (eInit s) with
  | .error code => .error code
  | .ok t =>
    match absorbAll t.idig.toList t with
    | .error code => .error code
    | .ok u => .ok (eFinal u)

/-- M.FINAL (R157). Afterwards IDIG is unspecified (`10_state.md` R34): a free value (log entry 2), under the number that
the draw counter had before the command, which no other free byte has. -/
def mFinalBody (s : State) : Except ErrCode State :=
  if s.session ≠ .hmac then .error .session
  else if s.mphase ≠ .msg then .error .phase
  else
    match runOuter (finishInner s) with
    | .error code => .error code
    | .ok t =>
      .ok (respond 0x00#8
        { t with kbuf := zeroBytes, mphase := .done, idig := freeInnerDigest s.draws })

/-- M.READ i (R158). -/
def mReadBody (i : Byte) (s : State) : Except ErrCode State :=
  if s.session ≠ .hmac then .error .session
  else if s.mphase ≠ .done then .error .phase
  else if indexInRange i = false then .error .index
  else .ok (respond (digestByte s.h i.toNat) s)

/-- M.INIT as a command (R153, R184). -/
def execMInit (s : State) : Result := runCommand mInitBody s

/-- M.KEY as a command (R154, R183, R184). -/
def execMKey (x : Byte) (s : State) : Result := runCommand (mKeyBody x) s

/-- M.KEYEND as a command (R155, R183, R184). -/
def execMKeyEnd (s : State) : Result := runCommand mKeyEndBody s

/-- M.MSG as a command (R156, R183, R184). -/
def execMMsg (x : Byte) (s : State) : Result := runCommand (mMsgBody x) s

/-- M.FINAL as a command (R157, R183, R184). -/
def execMFinal (s : State) : Result := runCommand mFinalBody s

/-- M.READ as a command (R158, R183, R184). -/
def execMRead (i : Byte) (s : State) : Result := runCommand (mReadBody i) s

end Sys2Proof.Machine
end

