-- ==== Sys2Proof/Machine/Dispatch.lean ====
section
/-! DEFINITION. One arm per command: the meaning of a decoded command on a state (`20_memory.md` R52). -/

namespace Sys2Proof.Machine

def exec (i : Instr) (s : State) : Host.Outcome State Fault Refusal :=
  match i with
  -- the hash engine
  | .nop => Sys2Proof.Machine.execNop s
  | .hInit => Sys2Proof.Machine.execHInit s
  | .hAbsorb x => Sys2Proof.Machine.execHAbsorb x s
  | .hFinal => Sys2Proof.Machine.execHFinal s
  | .hRead k => Sys2Proof.Machine.execHRead k s
  -- the HMAC controller
  | .mInit => Sys2Proof.Machine.execMInit s
  | .mKey x => Sys2Proof.Machine.execMKey x s
  | .mKeyEnd => Sys2Proof.Machine.execMKeyEnd s
  | .mMsg x => Sys2Proof.Machine.execMMsg x s
  | .mFinal => Sys2Proof.Machine.execMFinal s
  | .mRead k => Sys2Proof.Machine.execMRead k s

end Sys2Proof.Machine
end

