-- ==== Sys2Proof/Machine/Step.lean ====
section
/-! DEFINITION. One step of the block: take the host's next event and run it to its end (`20_memory.md` R58: "At
transaction level, the model's step is: accept one cmd_word, apply the command's rule, and return RSP and STATUS"). -/

namespace Sys2Proof.Machine

/-- An accepted word: decode it and run the command, or raise Fault(ILLEGAL) (`30_encoding.md` R84). -/
def runWord (w : CmdWord) (s : State) : Host.Outcome State Fault Refusal :=
  match decode w with
  | .ok i => exec i s
  | .error _ => execIllegal s

/-- One step. A command runs from its offer to its completion, the wait for `cmd_ready` after a reset included
(`70_reset_and_hazards.md` R202, R203); an undefined accepted word is a free value (D33, log entry 8); a reset and an
idle edge are one edge each. With nothing on the stream the host is idle. -/
def step (s : State) : Host.Outcome State Fault Refusal :=
  match s.host with
  | [] => .next (idleEdge s)
  | .idle :: rest => .next (idleEdge { s with host := rest })
  | .reset :: rest => .next (resetBlock { s with host := rest })
  | .command w :: rest => completed (runWord w { s with host := rest })
  | .unstable :: rest =>
    completed (runWord (Config.freeCommandWord s.draws) { s with host := rest, draws := s.draws + 1 })

/-- The state with the opcode table's word offered as the host's next command. The block fetches nothing
(`20_memory.md` R61): its next instruction is what the host offers next. -/
def State.withFetchWord (s : State) (nbits w : Nat) : State :=
  { s with host := .command (BitVec.ofNat 16 (w % 2 ^ nbits)) :: s.host }

end Sys2Proof.Machine
end

