-- ==== Sys2Proof/Machine/Device.lean ====
section
/-! DEFINITION. A device of several instances of the block (`60_exceptions.md` R190): each has its own copy of all the
state, and a step of one is a step of that one alone. The spec does not say how the unspecified values of two instances
relate. Here the instances draw them from the same constants, so two with equal draw numbers get equal ones: the model's
choice (log entry 17). -/

namespace Sys2Proof.Machine

/-- The states of the instances of a device that holds n of them (R190). -/
abbrev Instances (n : Nat) := Vector State n

/-- A device holds N_INST instances (R190, `00_scope.md` R8). -/
abbrev Device := Instances Config.nInst

/-- One instance of a device takes a step (R190, `20_memory.md` R60). What the spec leaves unspecified (A..E, W, T, IDIG,
the word after a broken offer) comes from the instance's own draw number alone, so it agrees between instances whose draw
numbers agree: DESIGN CHOICE (log entry 17). -/
def stepDevice {n : Nat} (k : Fin n) (d : Instances n) : Host.Outcome (Instances n) Fault Refusal :=
  match step d[k] with
  | .next s => .next (d.set k s)
  | .fault r => .fault r
  | .refused r => .refused r

end Sys2Proof.Machine
end

