-- ==== Sys2Proof/Machine/Port.lean ====
section
/-! DEFINITION. The signal-level interface of `20_memory.md` R58, one rising edge of `clk` at a time, around the
transaction-level block: the handshake, the latency parameter, a reset that abandons a command in progress
(`70_reset_and_hazards.md` R200), and a host that breaks the handshake (R203). -/

namespace Sys2Proof.Machine

/-- The block's inputs, as sampled at one rising edge of `clk` (R58). -/
structure Pins where
  rst      : Bool
  cmdValid : Bool
  cmdWord  : CmdWord
  deriving DecidableEq, Repr

/-- A command that has been accepted and has not completed: its word and the edges left until completion. -/
structure InFlight where
  word : CmdWord
  left : Nat
  deriving DecidableEq, Repr

/-- What the host has offered at the edges before, without acceptance (R203 duty 1). -/
inductive Offer where
  /-- nothing -/
  | none
  /-- this word, held stable -/
  | stable (w : CmdWord)
  /-- a word that was changed or dropped before acceptance: the accepted word is undefined -/
  | broken
  deriving DecidableEq, Repr

/-- The block at signal level. -/
structure Clocked where
  core     : State
  inFlight : Option InFlight
  offer    : Offer
  /-- the number of commands accepted so far, which tells one acceptance's latency from another's (log entry 10) -/
  accepted : Nat
  deriving DecidableEq, Repr

/-- The offer after an edge that accepts nothing (R203 duty 1). -/
def offerAfter (p : Pins) : Offer → Offer
  | .none => if p.cmdValid then .stable p.cmdWord else .none
  | .stable w => if p.cmdValid ∧ p.cmdWord = w then .stable w else .broken
  | .broken => .broken

/-- Whether the host keeps duty 1 of R203 at this edge. -/
def offerKept (p : Pins) : Offer → Bool
  | .none => true
  | .stable w => decide (p.cmdWord = w)
  | .broken => false

/-- The word a host that breaks the handshake gets accepted is undefined (R203, I10): a free value; otherwise it is the
word on the pins (R58). -/
def acceptedWord (p : Pins) (c : Clocked) : CmdWord :=
  if offerKept p c.offer then p.cmdWord else Config.freeCommandWord c.core.draws

/-- The core after an acceptance: `cmd_ready` is 0 until completion, and the pulse of an earlier command is over (R58).
The registers, `rsp_data` and `status` keep their values until completion. -/
def acceptingCore (p : Pins) (c : Clocked) : State :=
  { c.core with
    cmdReady := false
    rspValid := false
    draws := if offerKept p c.offer then c.core.draws else c.core.draws + 1 }

/-- "A command is accepted at a rising edge where cmd_valid = 1 and cmd_ready = 1 and rst = 0" (R58). -/
def acceptEdge (p : Pins) (c : Clocked) : Clocked where
  core := acceptingCore p c
  inFlight := some ⟨acceptedWord p c, Config.latCmd (opField (acceptedWord p c)) c.accepted⟩
  offer := .none
  accepted := c.accepted + 1

/-- What completing a command makes of the whole. -/
def completeEdge (p : Pins) (c : Clocked) : Result → Host.Outcome Clocked Fault Refusal
  | .next s => .next { c with core := s, inFlight := none, offer := offerAfter p c.offer }
  | .fault r => .fault r
  | .refused r => .refused r

/-- One rising edge of `clk` (R58, R200). A reset forgets a broken offer; a word offered at the reset edge itself counts as
offered (DESIGN CHOICE, log entry 9). -/
def edge (p : Pins) (c : Clocked) : Host.Outcome Clocked Fault Refusal :=
  if p.rst then .next { c with core := resetBlock c.core, inFlight := none, offer := offerAfter p .none }
  else
    match c.inFlight with
    | some f =>
      if f.left ≤ 1 then completeEdge p c (completed (runWord f.word c.core))
      else .next { c with inFlight := some ⟨f.word, f.left - 1⟩, offer := offerAfter p c.offer }
    | none =>
      if p.cmdValid && c.core.cmdReady then .next (acceptEdge p c)
      else .next { c with core := idleEdge c.core, offer := offerAfter p c.offer }

/-- A sequence of rising edges. -/
def edges : List Pins → Clocked → Host.Outcome Clocked Fault Refusal
  | [], c => .next c
  | p :: ps, c =>
    match edge p c with
    | .next d => edges ps d
    | .fault r => .fault r
    | .refused r => .refused r

/-- The block at signal level after the first edge with `rst` = 1 (R200, R202). -/
def Clocked.reset : Clocked := ⟨State.reset, none, .none, 0⟩

end Sys2Proof.Machine
end

