-- ==== Sys2Proof/Machine/Algorithm.lean ====
section
/-! DEFINITION. The source's algorithm as functions of byte sequences, apart from any state: padding and Hash
(`41_hash_commands.md` R139), key normalisation, pads and the dual invocation (`42_hmac_commands.md` R150 to R152). -/

namespace Sys2Proof.Machine

/-- BE64(v), the 8 bytes of v, most significant first (R139). -/
def lengthBytes (v : BitVec 64) : List Byte := (List.range 8).map fun j => byteOfLength j v

/-- "z = the least number >= 0 with (|m| + 1 + z + 8) mod 64 = 0", for |m| = n (R139). -/
def padZeros (n : Nat) : Nat := (119 - n % 64) % 64

/-- `pad(m) = m ++ [0x80] ++ z × [0x00] ++ BE64(8 × |m|)` (R139). R139 defines it for |m| ≤ 2^61 − 1; for a longer m the
8 bytes hold 8 × |m| modulo 2^64, which is a DESIGN CHOICE (log entry 18). -/
def padMessage (m : List Byte) : List Byte :=
  m ++ [0x80#8] ++ List.replicate (padZeros m.length) 0x00#8 ++ lengthBytes (BitVec.ofNat 64 (8 * m.length))

/-- The first 64 bytes of a byte sequence as a block. -/
def blockOf (l : List Byte) : Vector Byte 64 := Vector.ofFn fun i => l.getD i.val 0x00#8

/-- "for each 64-byte block B, in order: H <- compress(H, B)", over the first n blocks of a byte sequence (R139). -/
def compressBlocks : Nat → Vector Word 5 → List Byte → Vector Word 5
  | 0, h, _ => h
  | n + 1, h, l => compressBlocks n (compress h (blockOf l)) (l.drop 64)

/-- `Hash(m)`: the 20 bytes of the digest of a byte sequence (R139); outside R139's domain, |m| ≥ 2^61, what the padding
of log entry 18 gives. -/
def hashBytes (m : List Byte) : List Byte :=
  (digest (compressBlocks ((padMessage m).length / 64) initialH (padMessage m))).toList

/-- `normalise(key)`: the 64 bytes of K0 (R150). -/
def normalKey (key : List Byte) : List Byte :=
  let k := if key.length > 64 then hashBytes key else key
  k ++ List.replicate (64 - k.length) 0x00#8

/-- inner_pad (R151). -/
def innerPad (key : List Byte) : List Byte := (normalKey key).map fun k => k ^^^ ipadByte

/-- outer_pad (R151). -/
def outerPad (key : List Byte) : List Byte := (normalKey key).map fun k => k ^^^ opadByte

/-- `tag = Hash(outer_pad ++ Hash(inner_pad ++ message))` (R152). -/
def hmacBytes (key message : List Byte) : List Byte :=
  hashBytes (outerPad key ++ hashBytes (innerPad key ++ message))

end Sys2Proof.Machine
end

