-- ==== Sys2Proof/Machine/Assembler.lean ====
section
/-! DEFINITION. The assembler of `30_encoding.md` R90 to R96: reading one line of text, and the expansions of the
pseudo-instructions. It is the host's notation; the block sees only the words. -/

namespace Sys2Proof.Machine

/-- Why a line is not a statement (R90). -/
inductive SyntaxError where
  /-- the line starts with no mnemonic of R90 -/
  | mnemonic
  /-- the operand is neither a number nor a quoted character -/
  | operand
  /-- something other than a comment follows the statement -/
  | trailing
  /-- the statement is not well formed: an operand on a format-N command, a missing one, or a value above 255 -/
  | illFormed
  deriving DecidableEq, Repr

/-- A mnemonic as it is written (R90). -/
def mnemonicChars : Mnemonic → List Char
  | .nop => ['N', 'O', 'P']
  | .hInit => ['H', '.', 'I', 'N', 'I', 'T']
  | .hAbsorb => ['H', '.', 'A', 'B', 'S', 'O', 'R', 'B']
  | .hFinal => ['H', '.', 'F', 'I', 'N', 'A', 'L']
  | .hRead => ['H', '.', 'R', 'E', 'A', 'D']
  | .mInit => ['M', '.', 'I', 'N', 'I', 'T']
  | .mKey => ['M', '.', 'K', 'E', 'Y']
  | .mKeyEnd => ['M', '.', 'K', 'E', 'Y', 'E', 'N', 'D']
  | .mMsg => ['M', '.', 'M', 'S', 'G']
  | .mFinal => ['M', '.', 'F', 'I', 'N', 'A', 'L']
  | .mRead => ['M', '.', 'R', 'E', 'A', 'D']

/-- All mnemonics (R90). -/
def allMnemonics : List Mnemonic :=
  [.nop, .hInit, .hAbsorb, .hFinal, .hRead, .mInit, .mKey, .mKeyEnd, .mMsg, .mFinal, .mRead]

/-- White space between the parts of a line: DESIGN CHOICE, the grammar of R90 names none (log entry 12). -/
def isBlank (c : Char) : Bool := c == ' ' || c == '\t'

/-- The characters that may stand in a token: none that ends one. -/
def inToken (c : Char) : Bool := !(isBlank c) && c != ';'

/-- The rest of a line after white space. -/
def skipBlanks (l : List Char) : List Char := l.dropWhile isBlank

/-- Whether nothing but white space and a comment is left of a line (R91). -/
def atEnd (l : List Char) : Bool :=
  match skipBlanks l with
  | [] => true
  | c :: _ => c == ';'

/-- The value of a decimal digit. -/
def decDigit (c : Char) : Option Nat :=
  if '0'.toNat ≤ c.toNat ∧ c.toNat ≤ '9'.toNat then some (c.toNat - '0'.toNat) else none

/-- The value of a hexadecimal digit, of either case (log entry 12). -/
def hexDigit (c : Char) : Option Nat :=
  if '0'.toNat ≤ c.toNat ∧ c.toNat ≤ '9'.toNat then some (c.toNat - '0'.toNat)
  else if 'a'.toNat ≤ c.toNat ∧ c.toNat ≤ 'f'.toNat then some (c.toNat - 'a'.toNat + 10)
  else if 'A'.toNat ≤ c.toNat ∧ c.toNat ≤ 'F'.toNat then some (c.toNat - 'A'.toNat + 10)
  else none

/-- A sequence of digits in a base, most significant first, added to the value so far. -/
def readDigits (digit : Char → Option Nat) (base : Nat) : Nat → List Char → Option Nat
  | acc, [] => some acc
  | acc, c :: cs =>
    match digit c with
    | some d => readDigits digit base (base * acc + d) cs
    | none => none

/-- `number ::= "0x" hexdigits | decimal`, each with at least one digit (R90). -/
def readNumber (l : List Char) : Option Nat :=
  match l with
  | '0' :: 'x' :: c :: cs => readDigits hexDigit 16 0 (c :: cs)
  | c :: cs => readDigits decDigit 10 0 (c :: cs)
  | [] => none

/-- `operand ::= number | "'" char "'"`: its value and the rest of the line. "A character literal stands for its ASCII
code" (R90); a character without one is no operand. -/
def readOperand (l : List Char) : Option (Nat × List Char) :=
  match l with
  | '\'' :: c :: '\'' :: rest => if c.toNat < 128 then some (c.toNat, rest) else none
  | _ =>
    match readNumber (l.takeWhile inToken) with
    | some v => some (v, l.dropWhile inToken)
    | none => none

/-- One line of assembler: nothing, or one statement (R90, R91). -/
def readLine (line : List Char) : Except SyntaxError (Option Stmt) :=
  if atEnd line then .ok none
  else
    let l := skipBlanks line
    match allMnemonics.find? fun m => mnemonicChars m == l.takeWhile inToken with
    | none => .error .mnemonic
    | some m =>
      let rest := skipBlanks (l.dropWhile inToken)
      if atEnd rest then .ok (some ⟨m, none⟩)
      else
        match readOperand rest with
        | none => .error .operand
        | some (v, tail) => if atEnd tail then .ok (some ⟨m, some v⟩) else .error .trailing

/-- The command word of one line, if it holds a statement: "The word is (OP << 8) OR operand" (R90). -/
def assembleLine (line : List Char) : Except SyntaxError (Option CmdWord) :=
  match readLine line with
  | .error e => .error e
  | .ok none => .ok none
  | .ok (some st) =>
    match assembleStmt st with
    | some i => .ok (some (encode i))
    | none => .error .illFormed

/-- The expansions of the pseudo-instructions (R92 to R96). -/
def expand : Pseudo → List Instr
  | .hAbsorbs s => s.map .hAbsorb
  | .mMsgs s => s.map .mMsg
  | .mKeys k => k.map .mKey ++ [.mKeyEnd]
  | .hReadAll => (List.range 20).map fun i => .hRead (BitVec.ofNat 8 i)
  | .mReadAll => (List.range 20).map fun i => .mRead (BitVec.ofNat 8 i)
  | .hash m => [.hInit] ++ m.map .hAbsorb ++ [.hFinal] ++ (List.range 20).map fun i => .hRead (BitVec.ofNat 8 i)
  | .hmac k m =>
    [.mInit] ++ (k.map .mKey ++ [.mKeyEnd]) ++ m.map .mMsg ++ [.mFinal]
      ++ (List.range 20).map fun i => .mRead (BitVec.ofNat 8 i)

end Sys2Proof.Machine
end

