-- ==== Sys2Proof/Machine/Sequence.lean ====
section
/-! DEFINITION. Sequences of commands and the RSP values the host collects from them (`30_encoding.md` R94 to R96). -/

namespace Sys2Proof.Machine

/-- Run commands in order; the answer is the RSP value after each and the state after the last. -/
def runCommands : List Instr → State → Host.Outcome (List Byte × State) Fault Refusal
  | [], s => .next ([], s)
  | i :: is, s =>
    match exec i s with
    | .fault r => .fault r
    | .refused r => .refused r
    | .next t =>
      match runCommands is t with
      | .next (out, u) => .next (t.rsp :: out, u)
      | .fault r => .fault r
      | .refused r => .refused r

/-- The host events that offer the words of commands, in order (`20_memory.md` R57). -/
def offerAll (is : List Instr) : List HostEvent := is.map fun i => .command (encode i)

end Sys2Proof.Machine
end

