-- ==== Sys2Proof/Safety.lean ====
section
/-! DEFINITION. What counts as a sound state (the invariants of `10_state.md` R39), what the host can see of a state
(`60_exceptions.md` R188), and the functions the statements are written with: the fault a word must report (R181), the
blocks of a finalisation (R132), the compressions of a command (R207). -/

namespace Sys2Proof.Machine

/-- The twelve invariants of `10_state.md` R39, and KLEN's range of R32. Item 1, CNT ≤ 63, is the first clause. -/
structure State.Inv (s : State) : Prop where
  cnt_range : s.cnt.toNat ≤ 63
  whole_blocks : s.ephase = .absorb → s.bitlen.toNat % 512 = 0
  bits_fit : s.bitlen.toNat + 8 * s.cnt.toNat ≤ 2 ^ 64 - 8
  idle_iff : s.ephase = .idle ↔ s.session = .none ∨ (s.session = .hmac ∧ s.mphase = .key ∧ s.longkey = false)
  hash_session : s.session = .hash → s.mphase = .idle ∧ s.klen = 0#7 ∧ s.longkey = false ∧ s.kbuf = zeroBytes
  hmac_session : s.session = .hmac → s.mphase ≠ .idle
  msg_absorbs : s.mphase = .msg → s.ephase = .absorb
  done_wiped : s.mphase = .done → s.ephase = .done ∧ s.kbuf = zeroBytes
  longkey_absorbs : s.longkey = true → s.klen = 64#7 ∧ s.mphase = .key ∧ s.ephase = .absorb
  key_padded : s.mphase = .key → s.longkey = false → ∀ j, s.klen.toNat ≤ j → j < 64 → peek s.kbuf j = 0x00#8
  fault_code : (s.fault = true ↔ s.errcode ≠ .none)
  no_key_no_count : s.mphase ≠ .key → s.klen = 0#7 ∧ s.longkey = false
  longkey_wiped : s.longkey = true → s.kbuf = zeroBytes
  klen_range : s.klen.toNat ≤ 64

/-- The fault a word must report, transcribed from the table of `60_exceptions.md` R181: OP and ARG of the word, and the
state before it with FAULT = 0. The columns are checked left to right (R182). -/
def faultOfWord (op arg : Byte) (s : State) : ErrCode :=
  let full := s.cnt.toNat = 63 ∧ s.bitlen.toNat = 2 ^ 64 - 512
  match op.toNat with
  | 0x00 => if arg ≠ 0x00#8 then .illegal else .none
  | 0x01 => if arg ≠ 0x00#8 then .illegal else .none
  | 0x02 =>
    if s.session ≠ .hash then .session else if s.ephase ≠ .absorb then .phase else if full then .length else .none
  | 0x03 =>
    if arg ≠ 0x00#8 then .illegal else if s.session ≠ .hash then .session
    else if s.ephase ≠ .absorb then .phase else .none
  | 0x04 =>
    if s.session ≠ .hash then .session else if s.ephase ≠ .done then .phase
    else if 20 ≤ arg.toNat then .index else .none
  | 0x11 => if arg ≠ 0x00#8 then .illegal else .none
  | 0x12 =>
    if s.session ≠ .hmac then .session else if s.mphase ≠ .key then .phase
    else if s.longkey = true ∧ full then .length else .none
  | 0x13 =>
    if arg ≠ 0x00#8 then .illegal else if s.session ≠ .hmac then .session
    else if s.mphase ≠ .key then .phase else .none
  | 0x14 =>
    if s.session ≠ .hmac then .session else if s.mphase ≠ .msg then .phase else if full then .length else .none
  | 0x15 =>
    if arg ≠ 0x00#8 then .illegal else if s.session ≠ .hmac then .session
    else if s.mphase ≠ .msg then .phase else .none
  | 0x16 =>
    if s.session ≠ .hmac then .session else if s.mphase ≠ .done then .phase
    else if 20 ≤ arg.toNat then .index else .none
  | _ => .illegal

/-- The commands, and the sessions and phases, in which a data byte x goes straight into the engine: H.ABSORB (R136),
M.MSG (R156) and M.KEY once the key is long (R154, third branch). -/
def Absorbs (i : Instr) (x : Byte) (s : State) : Prop :=
  (i = .hAbsorb x ∧ s.session = .hash ∧ s.ephase = .absorb) ∨
  (i = .mMsg x ∧ s.session = .hmac ∧ s.mphase = .msg) ∨
  (i = .mKey x ∧ s.session = .hmac ∧ s.mphase = .key ∧ s.longkey = true)

/-- The bytes of BUF that the current block has received, those at indices below CNT (`10_state.md` R22). -/
def liveBytes (s : State) : List Byte := s.buf.toList.take s.cnt.toNat

/-- The 8 bytes of the length field at finalisation, L = BITLEN + 8 × CNT (`41_hash_commands.md` R132). -/
def lengthField (s : State) : List Byte := lengthBytes (BitVec.ofNat 64 (s.bitlen.toNat + 8 * s.cnt.toNat))

/-- The one or two blocks that finalisation compresses, as the layouts of `41_hash_commands.md` R132 give them. -/
def finalBlocks (s : State) : List (Vector Byte 64) :=
  if s.cnt.toNat ≤ 55 then
    [blockOf (liveBytes s ++ [0x80#8] ++ List.replicate (55 - s.cnt.toNat) 0x00#8 ++ lengthField s)]
  else
    [blockOf (liveBytes s ++ [0x80#8] ++ List.replicate (63 - s.cnt.toNat) 0x00#8),
      blockOf (List.replicate 56 0x00#8 ++ lengthField s)]

/-- H after finalisation: the final blocks compressed in order (`41_hash_commands.md` R132). -/
def finalH (s : State) : Vector Word 5 := (finalBlocks s).foldl compress s.h

/-- KBUF with each byte XORed with a pad byte, as a block (`42_hmac_commands.md` R151). -/
def padBlock (kbuf : Vector Byte 64) (pad : Byte) : Vector Byte 64 := kbuf.map fun k => k ^^^ pad

/-- The last block of the outer hash: the inner digest, the padding and the length of 84 bytes, 672 bits
(`42_hmac_commands.md` R157). -/
def outerLastBlock (inner : Vector Byte 20) : Vector Byte 64 :=
  blockOf (inner.toList ++ [0x80#8] ++ List.replicate 35 0x00#8 ++ lengthBytes 672#64)

/-- The number of compressions of a command that does not fault, transcribed from the table of
`70_reset_and_hazards.md` R207. While the message is taken, CNT is the message length mod 64 (R157). -/
def compressionsOf (i : Instr) (s : State) : Nat :=
  match i with
  | .nop => 0
  | .hInit => 0
  | .hAbsorb _ => if s.cnt.toNat = 63 then 1 else 0
  | .hFinal => if s.cnt.toNat ≤ 55 then 1 else 2
  | .hRead _ => 0
  | .mInit => 0
  | .mKey _ =>
    if s.longkey = true then (if s.cnt.toNat = 63 then 1 else 0) else (if 64 ≤ s.klen.toNat then 1 else 0)
  | .mKeyEnd => if s.longkey = true then 1 + (if s.cnt.toNat ≤ 55 then 1 else 2) else 1
  | .mMsg _ => if s.cnt.toNat = 63 then 1 else 0
  | .mFinal => if s.cnt.toNat ≤ 55 then 3 else 4
  | .mRead _ => 0

/-- When H holds a digest or a tag that a READ may show (`41_hash_commands.md` R138, `42_hmac_commands.md` R158). -/
def State.readable (s : State) : Prop :=
  (s.session = .hash ∧ s.ephase = .done) ∨ (s.session = .hmac ∧ s.mphase = .done)

/-- Two states that differ at most in what R188 says no command and no signal exposes: the contents of KBUF, IDIG, BUF
and the transient registers, and H while it is not readable. The counts and the phases agree. -/
structure SameButSecrets (s t : State) : Prop where
  cnt : s.cnt = t.cnt
  bitlen : s.bitlen = t.bitlen
  ephase : s.ephase = t.ephase
  mphase : s.mphase = t.mphase
  klen : s.klen = t.klen
  longkey : s.longkey = t.longkey
  session : s.session = t.session
  fault : s.fault = t.fault
  errcode : s.errcode = t.errcode
  rsp : s.rsp = t.rsp
  cmdReady : s.cmdReady = t.cmdReady
  rspValid : s.rspValid = t.rspValid
  readable_h : s.readable → s.h = t.h

/-- Two states that differ at most in stale BUF bytes, those at indices ≥ CNT (`20_memory.md` R55), in the transient
registers A..E, W, T and IDIG, whose values between commands are unspecified (`10_state.md` R25 to R27, R34), and in the
number of the next free value. -/
structure SameButStale (s t : State) : Prop where
  h : s.h = t.h
  live_bytes : ∀ j, j < s.cnt.toNat → peek s.buf j = peek t.buf j
  cnt : s.cnt = t.cnt
  bitlen : s.bitlen = t.bitlen
  ephase : s.ephase = t.ephase
  mphase : s.mphase = t.mphase
  kbuf : s.kbuf = t.kbuf
  klen : s.klen = t.klen
  longkey : s.longkey = t.longkey
  session : s.session = t.session
  fault : s.fault = t.fault
  errcode : s.errcode = t.errcode
  rsp : s.rsp = t.rsp
  cmdReady : s.cmdReady = t.cmdReady
  rspValid : s.rspValid = t.rspValid

end Sys2Proof.Machine
end

