-- ==== Sys2Proof/Certificates/Slice0/Obligations.lean ====
section
/-! DEFINITION. The statements for the provers, each from a rule of the spec. A free value (a transient register after a
compression, IDIG after M.FINAL) stands behind an existential quantifier, so no statement rests on it. Where a statement
gives a command's next state whole, or its frame, two clauses of it are the model's choice: that A..E, W, T (without a
compression) and IDIG (outside M.FINAL) stay as they were (log entry 2), and which bytes BUF holds behind CNT (log
entry 4). -/

open Sys2Proof Sys2Proof.Machine

/-! ## Encoding and assembler -/

/-- Words written out from `30_encoding.md` R80 and R83 decode to the commands they stand for. -/
def Obligations.SpecWordsDecodeToTheirCommands : Prop :=
  decode 0x0000#16 = .ok .nop ∧ decode 0x0100#16 = .ok .hInit ∧ decode 0x02FF#16 = .ok (.hAbsorb 0xFF#8) ∧
  decode 0x0300#16 = .ok .hFinal ∧ decode 0x0413#16 = .ok (.hRead 19#8) ∧ decode 0x0414#16 = .ok (.hRead 20#8) ∧
  decode 0x1100#16 = .ok .mInit ∧ decode 0x1280#16 = .ok (.mKey 0x80#8) ∧ decode 0x1300#16 = .ok .mKeyEnd ∧
  decode 0x1400#16 = .ok (.mMsg 0x00#8) ∧ decode 0x1500#16 = .ok .mFinal ∧ decode 0x1600#16 = .ok (.mRead 0#8) ∧
  decode 0x1180#16 = .error .nonzeroArg ∧ decode 0x1700#16 = .error .reservedOpcode

/-- Decoding the word of any well-formed command gives the command back, with every operand. -/
def Obligations.DecodingAnEncodedCommandGivesItBack : Prop :=
  ∀ i : Instr, i.wf = true → decode (encode i) = .ok i

/-- No word but its own decodes to a command: what a word decodes to encodes to that word. -/
def Obligations.EncodingADecodedWordGivesItBack : Prop :=
  ∀ (w : CmdWord) (i : Instr), decode w = .ok i → encode i = w

/-- `30_encoding.md` R86: a format-N OP with ARG ≠ 0 is illegal and faults ILLEGAL; it is not executed with ARG ignored. -/
def Obligations.NonzeroArgOnFormatNFaultsIllegal : Prop :=
  ∀ (w : CmdWord) (s : State) (rest : List HostEvent),
    (opField w).toNat ∈ [0x00, 0x01, 0x03, 0x11, 0x13, 0x15] → argField w ≠ 0x00#8 →
    s.fault = false → s.host = .command w :: rest →
    decode w = .error .nonzeroArg ∧
    step s = .next { s with
      host := rest, fault := true, errcode := .illegal, rsp := 0x00#8, cmdReady := true, rspValid := true }

/-- `30_encoding.md` R85: the 245 reserved OP values, each illegal whatever its ARG. -/
def Obligations.ReservedOpcodesFaultIllegal : Prop :=
  ((List.range 256).filter fun n => decide (0x05 ≤ n ∧ n ≤ 0x10) || decide (0x17 ≤ n)).length = 245 ∧
  ∀ (w : CmdWord) (s : State) (rest : List HostEvent),
    (0x05 ≤ (opField w).toNat ∧ (opField w).toNat ≤ 0x10) ∨ 0x17 ≤ (opField w).toNat →
    s.fault = false → s.host = .command w :: rest →
    decode w = .error .reservedOpcode ∧
    step s = .next { s with
      host := rest, fault := true, errcode := .illegal, rsp := 0x00#8, cmdReady := true, rspValid := true }

/-- `30_encoding.md` R90: a well-formed statement assembles to a command whose word is (OP << 8) OR operand, and an
ill-formed one assembles to nothing. -/
def Obligations.AssemblyFollowsTheStatement : Prop :=
  ∀ st : Stmt,
    (st.wf = true → ∃ i, assembleStmt st = some i ∧ i.toStmt = st ∧
      (encode i).toNat = (opcode st.mnemonic).toNat * 256 ||| st.operand.getD 0) ∧
    (st.wf = false → assembleStmt st = none)

/-- `30_encoding.md` R95: the expansion of HASH m and its number of commands. -/
def Obligations.HashExpandsToItsCommands : Prop :=
  ∀ m : List Byte,
    expand (.hash m) = [.hInit] ++ expand (.hAbsorbs m) ++ [.hFinal] ++ expand .hReadAll ∧
    (expand (.hash m)).length = 2 + m.length + 20

/-! ## Reset -/

/-- `10_state.md` R42: what reset leaves in every register whose value R42 gives, and STATUS. -/
def Obligations.ResetLeavesTheSpecsValues : Prop :=
  (∀ k, k < 5 → peek State.reset.h k = 0x00000000#32) ∧ (∀ j, j < 64 → peek State.reset.buf j = 0x00#8) ∧
  State.reset.cnt = 0#6 ∧ State.reset.bitlen = 0#64 ∧ State.reset.ephase = .idle ∧ State.reset.mphase = .idle ∧
  (∀ j, j < 64 → peek State.reset.kbuf j = 0x00#8) ∧ State.reset.klen = 0#7 ∧ State.reset.longkey = false ∧
  State.reset.session = .none ∧ State.reset.fault = false ∧ State.reset.errcode = .none ∧
  State.reset.rsp = 0x00#8 ∧ State.reset.status = 0x0000#16

/-- `70_reset_and_hazards.md` R200, edge by edge: at an edge with rst = 1, whatever is in flight, every register takes
its value of R42, nothing is accepted or left in flight, the outputs are 0; at the first edge after rst falls, cmd_ready
is 1. The model's choices: that this first edge itself accepts nothing, even if it offers a word, because the outputs in
State are those after an edge (log entry 9); and that a reset keeps the host's stream and leaves the unspecified
registers any value (log entry 7). -/
def Obligations.ResetEdgeAbandonsTheCommandInProgress : Prop :=
  ∀ (p q : Pins) (c : Clocked), p.rst = true → q.rst = false →
    ∃ d, edge p c = .next d ∧ d.inFlight = none ∧ d.core.cmdReady = false ∧ d.core.rspValid = false ∧
      d.core.rsp = 0x00#8 ∧ d.core.status = 0x0000#16 ∧
      d.core = { State.reset with
        dp := d.core.dp, idig := d.core.idig, host := c.core.host, draws := d.core.draws } ∧
      ∃ e, edge q d = .next e ∧ e.core.cmdReady = true ∧ e.inFlight = none ∧ e.core.status = 0x0000#16

/-! ## Steps -/

/-- A step whose next event is a command word runs the decoded command on the state without that event, and completes it:
cmd_ready and rsp_valid are 1. A word that decodes to nothing raises ILLEGAL, or is ignored while FAULT = 1. -/
def Obligations.StepRunsTheDecodedCommand : Prop :=
  ∀ (w : CmdWord) (s : State) (rest : List HostEvent), s.host = .command w :: rest →
    (∀ i t, decode w = .ok i → exec i { s with host := rest } = .next t →
      step s = .next { t with cmdReady := true, rspValid := true }) ∧
    (∀ r, decode w = .error r → s.fault = false →
      step s = .next { s with
        host := rest, fault := true, errcode := .illegal, rsp := 0x00#8, cmdReady := true, rspValid := true }) ∧
    (∀ r, decode w = .error r → s.fault = true →
      step s = .next { s with host := rest, rsp := 0x00#8, cmdReady := true, rspValid := true })

/-- The word of the opcode table placed as the next command is the one that the very next step runs. -/
def Obligations.PlacedWordRunsNext : Prop :=
  ∀ (nbits w : Nat) (s t : State) (i : Instr), decodeTableWord nbits w = some i → exec i s = .next t →
    step (s.withFetchWord nbits w) = .next { t with cmdReady := true, rspValid := true }

/-- A host that breaks the handshake gets some 16-bit word accepted, and nothing else happens (the model's choice, log
entry 8, which `92_eei_decisions.md` D33 allows). -/
def Obligations.BrokenHandshakeAcceptsSomeWord : Prop :=
  ∀ (s : State) (rest : List HostEvent), s.host = .unstable :: rest →
    ∃ w, step s = step { s with host := .command w :: rest, draws := s.draws + 1 }

/-- With nothing accepted and rst = 0 every register holds; the pulse ends and cmd_ready is 1. -/
def Obligations.IdleBlockHoldsItsState : Prop :=
  ∀ (s : State) (rest : List HostEvent), (s.host = .idle :: rest ∨ (s.host = [] ∧ rest = [])) →
    step s = .next { s with host := rest, cmdReady := true, rspValid := false }

/-- No state and no host event stops the block. -/
def Obligations.EveryStepAnswersANextState : Prop :=
  ∀ s : State, ∃ t, step s = .next t

/-- `20_memory.md` R57: offering the words of commands one after another has the effect of the commands in that order,
each seeing exactly what the one before left. -/
def Obligations.OfferedWordsRunInOrder : Prop :=
  ∀ (is : List Instr) (s t : State) (out : List Byte), is ≠ [] → runCommands is s = .next (out, t) →
    Host.Core.run Sys2Proof.core is.length { s with host := offerAll is ++ s.host }
      = .next { t with cmdReady := true, rspValid := true }

/-! ## STATUS -/

/-- `10_state.md` R38: the fields of STATUS, with the encodings of R24, R30, R35 and R180, and its reserved bits. -/
def Obligations.StatusShowsItsFields : Prop :=
  ∀ s : State,
    (s.status.extractLsb' 0 2).toNat = (match s.session with | .none => 0 | .hash => 1 | .hmac => 2) ∧
    (s.status.extractLsb' 2 2).toNat = (match s.ephase with | .idle => 0 | .absorb => 1 | .done => 2) ∧
    (s.status.extractLsb' 4 2).toNat = (match s.mphase with | .idle => 0 | .key => 1 | .msg => 2 | .done => 3) ∧
    s.status.getLsbD 6 = false ∧ s.status.getLsbD 7 = s.fault ∧
    (s.status.extractLsb' 8 4).toNat
      = (match s.errcode with | .none => 0 | .illegal => 1 | .session => 2 | .phase => 3 | .index => 4 | .length => 5) ∧
    s.status.extractLsb' 12 4 = 0#4

/-! ## What each command does -/

/-- `41_hash_commands.md` R134: in every session and phase, and while FAULT = 1 too. -/
def Obligations.NopOnlyClearsTheResponse : Prop :=
  ∀ s : State, exec .nop s = .next { s with rsp := 0x00#8 }

/-- `41_hash_commands.md` R135 and R130: from every session and phase, with the initial values of R28 written out. -/
def Obligations.HInitOpensAFreshHashSession : Prop :=
  ∀ s : State, s.fault = false →
    exec .hInit s = .next { s with
      session := .hash, mphase := .idle, kbuf := Vector.replicate 64 0x00#8, klen := 0#7, longkey := false
      h := #v[0x67452301#32, 0xEFCDAB89#32, 0x98BADCFE#32, 0x10325476#32, 0xC3D2E1F0#32]
      buf := Vector.replicate 64 0x00#8, cnt := 0#6, bitlen := 0#64, ephase := .absorb, rsp := 0x00#8 }

/-- `41_hash_commands.md` R131, for each of the three commands that absorb a data byte: it is buffered, or it completes a
block, or its bit length would not fit and the command faults LENGTH. -/
def Obligations.AbsorbedByteIsBufferedOrCompletesABlock : Prop :=
  ∀ (i : Instr) (x : Byte) (s : State), s.fault = false → Absorbs i x s →
    (s.cnt.toNat < 63 →
      exec i s = .next { s with buf := poke s.buf s.cnt.toNat x, cnt := s.cnt + 1#6, rsp := 0x00#8 }) ∧
    (s.cnt.toNat = 63 → s.bitlen.toNat ≠ 2 ^ 64 - 512 →
      ∃ dp draws, exec i s = .next { s with
        buf := poke s.buf 63 x, h := compress s.h (poke s.buf 63 x), bitlen := s.bitlen + 512#64, cnt := 0#6
        rsp := 0x00#8, dp := dp, draws := draws }) ∧
    (s.cnt.toNat = 63 → s.bitlen.toNat = 2 ^ 64 - 512 →
      exec i s = .next { s with fault := true, errcode := .length, rsp := 0x00#8 })

/-- `41_hash_commands.md` R132 and R137: H.FINAL compresses the one or two final blocks of R132's layouts. -/
def Obligations.HFinalCompressesTheFinalBlocks : Prop :=
  ∀ s : State, s.fault = false → s.session = .hash → s.ephase = .absorb →
    ∃ dp draws, exec .hFinal s = .next { s with
      h := finalH s, buf := (finalBlocks s).getLastD zeroBytes
      bitlen := BitVec.ofNat 64 (s.bitlen.toNat + 8 * s.cnt.toNat), cnt := 0#6, ephase := .done, rsp := 0x00#8
      dp := dp, draws := draws }

/-- `41_hash_commands.md` R133, R138 and `42_hmac_commands.md` R158: byte 4k+j of the digest is bits 31−8j to 24−8j of
H[k], and reading it changes nothing but RSP. -/
def Obligations.ReadsShowTheDigestByte : Prop :=
  ∀ (s : State) (k j : Nat) (hk : k < 5), s.fault = false → j < 4 →
    (s.session = .hash → s.ephase = .done →
      exec (.hRead (BitVec.ofNat 8 (4 * k + j))) s
        = .next { s with rsp := BitVec.ofNat 8 (s.h[k].toNat / 2 ^ (24 - 8 * j)) }) ∧
    (s.session = .hmac → s.mphase = .done →
      exec (.mRead (BitVec.ofNat 8 (4 * k + j))) s
        = .next { s with rsp := BitVec.ofNat 8 (s.h[k].toNat / 2 ^ (24 - 8 * j)) })

/-- `42_hmac_commands.md` R153: from every session and phase. -/
def Obligations.MInitOpensAWipedHmacSession : Prop :=
  ∀ s : State, s.fault = false →
    exec .mInit s = .next { s with
      session := .hmac, mphase := .key, kbuf := Vector.replicate 64 0x00#8, klen := 0#7, longkey := false
      h := Vector.replicate 5 0x00000000#32, buf := Vector.replicate 64 0x00#8, cnt := 0#6, bitlen := 0#64
      ephase := .idle, rsp := 0x00#8 }

/-- `42_hmac_commands.md` R154: a key byte that fits is kept; key byte 65 starts the key hash over the 64 held bytes and
itself and wipes KBUF; a later one is absorbed. KLEN never passes 64 (`10_state.md` R32). -/
def Obligations.MKeyKeepsOrHashesTheKey : Prop :=
  ∀ (x : Byte) (s : State), s.fault = false → s.session = .hmac → s.mphase = .key →
    (s.longkey = false → s.klen.toNat < 64 →
      exec (.mKey x) s = .next { s with kbuf := poke s.kbuf s.klen.toNat x, klen := s.klen + 1#7, rsp := 0x00#8 }) ∧
    (s.longkey = false → s.klen.toNat = 64 →
      ∃ dp draws, exec (.mKey x) s = .next { s with
        h := compress initialH s.kbuf, buf := poke s.kbuf 0 x, cnt := 1#6, bitlen := 512#64, ephase := .absorb
        kbuf := Vector.replicate 64 0x00#8, longkey := true, rsp := 0x00#8, dp := dp, draws := draws }) ∧
    (s.longkey = true → ∀ t, eAbsorb x s = .ok t → exec (.mKey x) s = .next { t with rsp := 0x00#8 }) ∧
    (s.longkey = true → ∀ c, eAbsorb x s = .error c →
      c = .length ∧ exec (.mKey x) s = .next { s with fault := true, errcode := .length, rsp := 0x00#8 })

/-- `42_hmac_commands.md` R155: the key of at most 64 bytes is K0 as it stands; a longer one is replaced by its digest and
zeros; then the inner pad is absorbed as one block. -/
def Obligations.MKeyEndAbsorbsTheInnerPad : Prop :=
  ∀ s : State, s.fault = false → s.session = .hmac → s.mphase = .key →
    ∃ k0 dp draws,
      (s.longkey = false → k0 = s.kbuf) ∧ (s.longkey = true → k0 = blockOf (digest (finalH s)).toList) ∧
      exec .mKeyEnd s = .next { s with
        kbuf := k0, klen := 0#7, longkey := false, h := compress initialH (padBlock k0 0x36#8)
        buf := padBlock k0 0x36#8, cnt := 0#6, bitlen := 512#64, ephase := .absorb, mphase := .msg, rsp := 0x00#8
        dp := dp, draws := draws }

/-- `42_hmac_commands.md` R157: the outer hash over the outer pad and the inner digest; the key is wiped. -/
def Obligations.MFinalRunsTheOuterHash : Prop :=
  ∀ s : State, s.fault = false → s.session = .hmac → s.mphase = .msg →
    ∃ dp idig draws, exec .mFinal s = .next { s with
      h := compress (compress initialH (padBlock s.kbuf 0x5C#8)) (outerLastBlock (digest (finalH s)))
      buf := outerLastBlock (digest (finalH s)), cnt := 0#6, bitlen := 672#64, ephase := .done
      kbuf := Vector.replicate 64 0x00#8, mphase := .done, rsp := 0x00#8, dp := dp, idig := idig, draws := draws }

/-! ## Faults -/

/-- `60_exceptions.md` R181 and R183: an accepted word faults with exactly the code of R181's table, and a fault leaves
the state before the command but for FAULT, ERRCODE and RSP; it completes like any other command. -/
def Obligations.WordsFaultExactlyAsTheTableSays : Prop :=
  ∀ (w : CmdWord) (s : State) (rest : List HostEvent), s.fault = false → s.host = .command w :: rest →
    ∃ t, step s = .next t ∧ t.cmdReady = true ∧ t.rspValid = true ∧
      (faultOfWord (opField w) (argField w) s = .none → t.fault = false ∧ t.errcode = s.errcode) ∧
      (faultOfWord (opField w) (argField w) s ≠ .none →
        t = { s with
          host := rest, fault := true, errcode := faultOfWord (opField w) (argField w) s, rsp := 0x00#8
          cmdReady := true, rspValid := true })

/-- `60_exceptions.md` R184: while FAULT = 1 every accepted word changes no state but RSP, and pulses rsp_valid. -/
def Obligations.FaultedBlockIgnoresEveryWord : Prop :=
  ∀ (w : CmdWord) (s : State) (rest : List HostEvent), s.fault = true → s.host = .command w :: rest →
    step s = .next { s with host := rest, rsp := 0x00#8, cmdReady := true, rspValid := true }

/-- `60_exceptions.md` R185: no step but a reset clears a fault or its code, and a reset clears every register. -/
def Obligations.OnlyResetLeavesAFault : Prop :=
  (∀ s t : State, s.fault = true → (∀ rest, s.host ≠ .reset :: rest) → step s = .next t →
    t.fault = true ∧ t.errcode = s.errcode) ∧
  (∀ (s : State) (rest : List HostEvent), s.host = .reset :: rest →
    ∃ dp idig draws, step s = .next { State.reset with host := rest, dp := dp, idig := idig, draws := draws })

/-! ## Frames -/

/-- NOP, H.ABSORB, H.FINAL and H.READ leave the controller's registers and SESSION as they were, faulting or not; when they
fault they write none of H, BUF, CNT, BITLEN and EPHASE either. That they leave IDIG, and when they fault the transient
registers, is the model's choice: the spec leaves these any value there (log entry 2). -/
def Obligations.HashCommandsLeaveTheController : Prop :=
  ∀ (i : Instr) (x : Byte) (s t : State), i ∈ [.nop, .hAbsorb x, .hFinal, .hRead x] → exec i s = .next t →
    t.mphase = s.mphase ∧ t.kbuf = s.kbuf ∧ t.klen = s.klen ∧ t.longkey = s.longkey ∧ t.idig = s.idig ∧
    t.session = s.session ∧
    (t.fault = true → t.h = s.h ∧ t.buf = s.buf ∧ t.cnt = s.cnt ∧ t.bitlen = s.bitlen ∧ t.ephase = s.ephase ∧
      t.dp = s.dp)

/-- Whatever they answer, NOP and the READs change nothing but RSP, FAULT and ERRCODE. That this takes in A..E, W, T and
IDIG is the model's choice (log entry 2). -/
def Obligations.ReadsLeaveEverythingButTheResponse : Prop :=
  ∀ (i : Instr) (k : Byte) (s t : State), i ∈ [.nop, .hRead k, .mRead k] → exec i s = .next t →
    { t with rsp := s.rsp, fault := s.fault, errcode := s.errcode } = s ∧
    (t.fault = false → t.errcode = s.errcode)

/-- The effect of a command, before its completion: no meaning touches the host's stream (the model's own, log entry 1) or
the handshake outputs, which acceptance and completion write around it (`20_memory.md` R58; log entry 9); only the INITs
write SESSION. That only M.FINAL changes IDIG is the model's choice: the spec leaves it any value (log entry 2). -/
def Obligations.CommandsLeaveTheHostAndTheHandshake : Prop :=
  ∀ (i : Instr) (s t : State), exec i s = .next t →
    t.host = s.host ∧ t.cmdReady = s.cmdReady ∧ t.rspValid = s.rspValid ∧
    (i ≠ .mFinal → t.idig = s.idig) ∧ (i ≠ .hInit → i ≠ .mInit → t.session = s.session)

/-- The number of compressions a command performs is that of R207's table, counted by the model's own draw counter (log
entry 2), and a command that performs none leaves the datapath registers as they were. -/
def Obligations.CommandsPerformTheirCompressions : Prop :=
  ∀ (i : Instr) (s t : State), s.fault = false → exec i s = .next t →
    (t.fault = false → t.draws = s.draws + compressionsOf i s) ∧ (t.fault = true → t.draws = s.draws) ∧
    (t.draws = s.draws → t.dp = s.dp)

/-! ## Invariants -/

/-- The invariants of `10_state.md` R39 hold at reset. -/
def Obligations.InvariantsHoldAtReset : Prop := State.reset.Inv

/-- Every step, from every state that has them, keeps the invariants of `10_state.md` R39 (and KLEN's range, R32). -/
def Obligations.EveryStepKeepsTheInvariants : Prop :=
  ∀ s t : State, s.Inv → step s = .next t → t.Inv

/-- `10_state.md` R39: whatever the host does from reset, the invariants hold after every step. -/
def Obligations.EveryReachableStateHasTheInvariants : Prop :=
  ∀ (events : List HostEvent) (n : Nat) (t : State),
    Host.Core.run Sys2Proof.core n { State.reset with host := events } = .next t → t.Inv

/-! ## Isolation -/

/-- `60_exceptions.md` R188: two states that differ only in the contents of KBUF, IDIG, BUF, the transient registers and
an H that is not readable show the host the same outputs after any command. -/
def Obligations.OutputsRevealNoSecretByte : Prop :=
  ∀ (i : Instr) (s t : State), SameButSecrets s t →
    ∃ s' t', exec i s = .next s' ∧ exec i t = .next t' ∧ s'.outputs = t'.outputs

/-- `20_memory.md` R55 and `10_state.md` R25 to R27, R34: stale BUF bytes and transient registers influence nothing but
themselves, over any command. -/
def Obligations.StaleBytesAndTransientsAreNeverRead : Prop :=
  ∀ (i : Instr) (s t : State), SameButStale s t →
    ∃ s' t', exec i s = .next s' ∧ exec i t = .next t' ∧ SameButStale s' t'

/-! ## The compression transform -/

/-- `00_scope.md` R10: bit i of ROTL(a, n) is bit i − n of a, taken round. -/
def Obligations.RotationMovesBitsRound : Prop :=
  ∀ (a : Word) (n i : Nat), 0 < n → n < 32 → i < 32 → (rotl a n).getLsbD i = a.getLsbD ((i + 32 - n) % 32)

/-- `40_compression.md` R101: in each bit, select, parity, majority, parity; and the two equivalent forms. -/
def Obligations.MixingFunctionsActBitByBit : Prop :=
  ∀ (t i : Nat) (b c d : Word), t < 80 → i < 32 →
    (t < 20 → (mix t b c d).getLsbD i = (if b.getLsbD i then c.getLsbD i else d.getLsbD i) ∧
      mix t b c d = (b &&& c) ^^^ (~~~b &&& d)) ∧
    ((20 ≤ t ∧ t < 40) ∨ 60 ≤ t →
      (mix t b c d).getLsbD i = (b.getLsbD i ^^ c.getLsbD i ^^ d.getLsbD i)) ∧
    (40 ≤ t → t < 60 →
      (mix t b c d).getLsbD i
        = decide (2 ≤ (b.getLsbD i).toNat + (c.getLsbD i).toNat + (d.getLsbD i).toNat) ∧
      mix t b c d = (b &&& c) ^^^ (b &&& d) ^^^ (c &&& d))

/-- `40_compression.md` R102: the schedule's first 16 words are the block's, big-endian, and the others follow the
recurrence. -/
def Obligations.ScheduleFollowsTheRecurrence : Prop :=
  ∀ (block : Vector Byte 64) (t : Nat),
    (∀ h : t < 16, (peek (schedule block) t).toNat
      = (block[4 * t].toNat * 2 ^ 24 + block[4 * t + 1].toNat * 2 ^ 16 + block[4 * t + 2].toNat * 2 ^ 8
        + block[4 * t + 3].toNat)) ∧
    (16 ≤ t → t < 80 → peek (schedule block) t
      = rotl (peek (schedule block) (t - 3) ^^^ peek (schedule block) (t - 8) ^^^ peek (schedule block) (t - 14)
          ^^^ peek (schedule block) (t - 16)) 1)

/-- `40_compression.md` R103 and R105 as numbers: the five-term sum and the state update are taken modulo 2^32. -/
def Obligations.RoundsAndUpdateAddModulo32Bits : Prop :=
  ∀ (t : Nat) (v : WorkVars) (wt : Word) (h : Vector Word 5), t < 80 →
    (roundStep t v wt).a.toNat
      = ((rotl v.a 5).toNat + (mix t v.b v.c v.d).toNat + v.e.toNat + (roundConstant t).toNat + wt.toNat) % 2 ^ 32 ∧
    (roundStep t v wt).b = v.a ∧ (roundStep t v wt).c = rotl v.b 30 ∧ (roundStep t v wt).d = v.c ∧
    (roundStep t v wt).e = v.d ∧
    (peek (stateUpdate h v) 0).toNat = (h[0].toNat + v.a.toNat) % 2 ^ 32 ∧
    (peek (stateUpdate h v) 1).toNat = (h[1].toNat + v.b.toNat) % 2 ^ 32 ∧
    (peek (stateUpdate h v) 2).toNat = (h[2].toNat + v.c.toNat) % 2 ^ 32 ∧
    (peek (stateUpdate h v) 3).toNat = (h[3].toNat + v.d.toNat) % 2 ^ 32 ∧
    (peek (stateUpdate h v) 4).toNat = (h[4].toNat + v.e.toNat) % 2 ^ 32

/-- `40_compression.md` R106: the 80 rounds on the registers A..E, W and T give the transform of the definition. -/
def Obligations.RegistersComputeTheTransform : Prop :=
  ∀ s : State, (compressBuffer s).h = compress s.h s.buf

/-- `40_compression.md` R107: the 16-word window gives the same transform. -/
def Obligations.WindowedScheduleGivesTheSameTransform : Prop :=
  ∀ (h : Vector Word 5) (block : Vector Byte 64), compressWindowed h block = compress h block

/-! ## What the command sequences compute -/

/-- `41_hash_commands.md` R139: HASH m, from any state with FAULT = 0, returns Hash(m), the padded-message form, in the
last 20 RSP values, without a fault. -/
def Obligations.HashSequenceReturnsTheDigest : Prop :=
  ∀ (m : List Byte) (s : State), s.fault = false → m.length ≤ 2 ^ 61 - 1 →
    ∃ out t, runCommands (expand (.hash m)) s = .next (out, t) ∧ t.fault = false ∧
      out.drop (2 + m.length) = hashBytes m

/-- `42_hmac_commands.md` R159: HMAC k, m, from any state with FAULT = 0, returns
Hash(outer_pad ++ Hash(inner_pad ++ m)) in the last 20 RSP values, without a fault. -/
def Obligations.HmacSequenceReturnsTheTag : Prop :=
  ∀ (k m : List Byte) (s : State), s.fault = false → k.length ≤ 2 ^ 61 - 1 → m.length ≤ 2 ^ 61 - 65 →
    ∃ out t, runCommands (expand (.hmac k m)) s = .next (out, t) ∧ t.fault = false ∧
      out.drop (3 + k.length + m.length) = hmacBytes k m

/-- `41_hash_commands.md` R140: a message of n bytes costs n div 64 compressions, and 1 or 2 more at finalisation,
counted by the model's own draw counter (log entry 2). -/
def Obligations.HashSequenceCostsItsCompressions : Prop :=
  ∀ (m : List Byte) (s t : State) (out : List Byte), s.fault = false → m.length ≤ 2 ^ 61 - 1 →
    runCommands (expand (.hash m)) s = .next (out, t) →
    t.draws = s.draws + m.length / 64 + (if m.length % 64 ≤ 55 then 1 else 2)

/-- `42_hmac_commands.md` R160: a long key and its digest give the same tag, and so do a short key and the same key with
zero bytes after it. For |k| or |m| so long that R139 does not define Hash, hmac is what the model's padding gives (log
entry 18). -/
def Obligations.KeyNormalisationLaws : Prop :=
  (∀ k m : List Byte, 64 < k.length → hmacBytes k m = hmacBytes (hashBytes k) m) ∧
  (∀ (k m : List Byte) (n : Nat), k.length ≤ 64 → n ≤ 64 - k.length →
    hmacBytes (k ++ List.replicate n 0x00#8) m = hmacBytes k m)

/-! ## Signals and instances -/

/-- `20_memory.md` R58: from an accepted command, cmd_ready and rsp_valid are 0 and rsp_data and status are unchanged for
fewer than LAT_CMD edges with rst = 0; at edge LAT_CMD the state is the one a transaction step gives. LAT_CMD is a free
number (log entry 10). That nothing is in flight after the completing edge, even where a word is offered at it, is the
model's reading (DEDUCED, log entry 9): cmd_ready is 0 until that edge. -/
def Obligations.HandshakeRefinesTheTransaction : Prop :=
  ∀ (p : Pins) (ps : List Pins) (c : Clocked),
    c.inFlight = none → c.offer = .none → c.core.cmdReady = true →
    p.rst = false → p.cmdValid = true → (∀ q ∈ ps, q.rst = false) →
    (ps.length < Config.latCmd (opField p.cmdWord) c.accepted →
      ∃ d, edges (p :: ps) c = .next d ∧ d.core.cmdReady = false ∧ d.core.rspValid = false ∧
        d.core.rsp = c.core.rsp ∧ d.core.status = c.core.status) ∧
    (ps.length = Config.latCmd (opField p.cmdWord) c.accepted →
      ∃ d, edges (p :: ps) c = .next d ∧ d.inFlight = none ∧
        step { c.core with host := .command p.cmdWord :: c.core.host } = .next d.core)

/-- `60_exceptions.md` R190, for a device of any number of instances: a step of one is that instance's own step and
leaves every other one as it was. -/
def Obligations.InstancesShareNoState : Prop :=
  ∀ (n : Nat) (k : Fin n) (d e : Instances n), stepDevice k d = .next e →
    step d[k] = .next e[k] ∧ ∀ j : Fin n, j ≠ k → e[j] = d[j]
end

