-- ==== Sys2Proof/Laws/Operands.lean ====
section
/-! SUPPORT. Reading and writing register arrays. -/

namespace Sys2Proof.Machine

variable {w n : Nat}

theorem peek_of_lt (v : Vector (BitVec w) n) {i : Nat} (h : i < n) : peek v i = v[i] := by
  simp [peek, h]

theorem peek_out (v : Vector (BitVec w) n) {i : Nat} (h : n ≤ i) : peek v i = 0#w := by
  simp [peek, Nat.not_lt.mpr h]

/-- Read after write, at the same place and at another. -/
theorem peek_poke (v : Vector (BitVec w) n) (i j : Nat) (x : BitVec w) :
    peek (poke v i x) j = if i = j ∧ i < n then x else peek v j := by
  unfold poke
  by_cases hi : i < n
  · by_cases hj : j < n
    · simp only [hi, ↓reduceDIte, peek_of_lt _ hj, Vector.getElem_set, and_true]
    · have hne : i ≠ j := by omega
      simp [hi, peek_out _ (Nat.not_lt.mp hj), hne]
  · simp [hi]

theorem peek_poke_same (v : Vector (BitVec w) n) {i : Nat} (h : i < n) (x : BitVec w) :
    peek (poke v i x) i = x := by
  simp [peek_poke, h]

theorem peek_poke_ne (v : Vector (BitVec w) n) {i j : Nat} (h : i ≠ j) (x : BitVec w) :
    peek (poke v i x) j = peek v j := by
  simp [peek_poke, h]

/-- A filled range reads as the value, everything else as before. -/
theorem peek_fill (v : Vector (BitVec w) n) (lo : Nat) (x : BitVec w) (count j : Nat) :
    peek (fill v lo x count) j = if lo ≤ j ∧ j < lo + count ∧ j < n then x else peek v j := by
  induction count generalizing v lo with
  | zero =>
    have : ¬ (lo ≤ j ∧ j < lo + 0 ∧ j < n) := by omega
    simp only [fill, this, if_false]
  | succ k ih =>
    simp only [fill, ih, peek_poke]
    by_cases h1 : lo + 1 ≤ j ∧ j < lo + 1 + k ∧ j < n
    · have h2 : lo ≤ j ∧ j < lo + (k + 1) ∧ j < n := by omega
      simp only [h1, h2, and_self, if_true]
    · by_cases h3 : lo = j ∧ lo < n
      · have h2 : lo ≤ j ∧ j < lo + (k + 1) ∧ j < n := by omega
        rw [if_neg h1, if_pos h3, if_pos h2]
      · have h2 : ¬ (lo ≤ j ∧ j < lo + (k + 1) ∧ j < n) := by omega
        rw [if_neg h1, if_neg h3, if_neg h2]

/-- Two register arrays that read alike everywhere are the same. -/
theorem ext_peek {u v : Vector (BitVec w) n} (h : ∀ j, j < n → peek u j = peek v j) : u = v := by
  apply Vector.ext
  intro j hj
  have := h j hj
  rwa [peek_of_lt _ hj, peek_of_lt _ hj] at this

theorem peek_ofFn (f : Fin n → BitVec w) {j : Nat} (h : j < n) : peek (Vector.ofFn f) j = f ⟨j, h⟩ := by
  simp [peek_of_lt _ h]

@[simp] theorem peek_zeroBytes (j : Nat) : peek zeroBytes j = 0x00#8 := by
  unfold peek zeroBytes
  split <;> simp

@[simp] theorem toList_getElem_eq_peek (v : Vector (BitVec w) n) {j : Nat} (h : j < n) :
    v.toList[j]'(by simpa using h) = peek v j := by
  simp [peek_of_lt _ h]

@[simp] theorem padBytes_length (k : Vector Byte 64) (pad : Byte) : (padBytes k pad).length = 64 := by
  simp [padBytes]

@[simp] theorem digest_toList_length (h : Vector Word 5) : (digest h).toList.length = 20 := by
  simp

theorem peek_digest (h : Vector Word 5) {i : Nat} (hi : i < 20) : peek (digest h) i = digestByte h i := by
  simp [digest, peek_ofFn _ hi]

end Sys2Proof.Machine
end

