-- ==== Sys2Proof/Laws/State.lean ====
section
/-! SUPPORT. What each state update does to each field, one lemma per field and update, so that no proof unfolds a record
update. -/

namespace Sys2Proof.Machine

@[simp] theorem respond_h (v : Byte) (s : State) : (respond v s).h = s.h := rfl
@[simp] theorem respond_buf (v : Byte) (s : State) : (respond v s).buf = s.buf := rfl
@[simp] theorem respond_cnt (v : Byte) (s : State) : (respond v s).cnt = s.cnt := rfl
@[simp] theorem respond_bitlen (v : Byte) (s : State) : (respond v s).bitlen = s.bitlen := rfl
@[simp] theorem respond_ephase (v : Byte) (s : State) : (respond v s).ephase = s.ephase := rfl
@[simp] theorem respond_dp (v : Byte) (s : State) : (respond v s).dp = s.dp := rfl
@[simp] theorem respond_mphase (v : Byte) (s : State) : (respond v s).mphase = s.mphase := rfl
@[simp] theorem respond_kbuf (v : Byte) (s : State) : (respond v s).kbuf = s.kbuf := rfl
@[simp] theorem respond_klen (v : Byte) (s : State) : (respond v s).klen = s.klen := rfl
@[simp] theorem respond_longkey (v : Byte) (s : State) : (respond v s).longkey = s.longkey := rfl
@[simp] theorem respond_idig (v : Byte) (s : State) : (respond v s).idig = s.idig := rfl
@[simp] theorem respond_session (v : Byte) (s : State) : (respond v s).session = s.session := rfl
@[simp] theorem respond_fault (v : Byte) (s : State) : (respond v s).fault = s.fault := rfl
@[simp] theorem respond_errcode (v : Byte) (s : State) : (respond v s).errcode = s.errcode := rfl
@[simp] theorem respond_rsp (v : Byte) (s : State) : (respond v s).rsp = v := rfl
@[simp] theorem respond_cmdReady (v : Byte) (s : State) : (respond v s).cmdReady = s.cmdReady := rfl
@[simp] theorem respond_rspValid (v : Byte) (s : State) : (respond v s).rspValid = s.rspValid := rfl
@[simp] theorem respond_host (v : Byte) (s : State) : (respond v s).host = s.host := rfl
@[simp] theorem respond_draws (v : Byte) (s : State) : (respond v s).draws = s.draws := rfl

@[simp] theorem raiseFault_h (c : ErrCode) (s : State) : (raiseFault c s).h = s.h := rfl
@[simp] theorem raiseFault_buf (c : ErrCode) (s : State) : (raiseFault c s).buf = s.buf := rfl
@[simp] theorem raiseFault_cnt (c : ErrCode) (s : State) : (raiseFault c s).cnt = s.cnt := rfl
@[simp] theorem raiseFault_bitlen (c : ErrCode) (s : State) : (raiseFault c s).bitlen = s.bitlen := rfl
@[simp] theorem raiseFault_ephase (c : ErrCode) (s : State) : (raiseFault c s).ephase = s.ephase := rfl
@[simp] theorem raiseFault_dp (c : ErrCode) (s : State) : (raiseFault c s).dp = s.dp := rfl
@[simp] theorem raiseFault_mphase (c : ErrCode) (s : State) : (raiseFault c s).mphase = s.mphase := rfl
@[simp] theorem raiseFault_kbuf (c : ErrCode) (s : State) : (raiseFault c s).kbuf = s.kbuf := rfl
@[simp] theorem raiseFault_klen (c : ErrCode) (s : State) : (raiseFault c s).klen = s.klen := rfl
@[simp] theorem raiseFault_longkey (c : ErrCode) (s : State) : (raiseFault c s).longkey = s.longkey := rfl
@[simp] theorem raiseFault_idig (c : ErrCode) (s : State) : (raiseFault c s).idig = s.idig := rfl
@[simp] theorem raiseFault_session (c : ErrCode) (s : State) : (raiseFault c s).session = s.session := rfl
@[simp] theorem raiseFault_fault (c : ErrCode) (s : State) : (raiseFault c s).fault = true := rfl
@[simp] theorem raiseFault_errcode (c : ErrCode) (s : State) : (raiseFault c s).errcode = c := rfl
@[simp] theorem raiseFault_rsp (c : ErrCode) (s : State) : (raiseFault c s).rsp = 0x00#8 := rfl
@[simp] theorem raiseFault_cmdReady (c : ErrCode) (s : State) : (raiseFault c s).cmdReady = s.cmdReady := rfl
@[simp] theorem raiseFault_rspValid (c : ErrCode) (s : State) : (raiseFault c s).rspValid = s.rspValid := rfl
@[simp] theorem raiseFault_host (c : ErrCode) (s : State) : (raiseFault c s).host = s.host := rfl
@[simp] theorem raiseFault_draws (c : ErrCode) (s : State) : (raiseFault c s).draws = s.draws := rfl

@[simp] theorem ignoreCommand_h (s : State) : (ignoreCommand s).h = s.h := rfl
@[simp] theorem ignoreCommand_buf (s : State) : (ignoreCommand s).buf = s.buf := rfl
@[simp] theorem ignoreCommand_cnt (s : State) : (ignoreCommand s).cnt = s.cnt := rfl
@[simp] theorem ignoreCommand_bitlen (s : State) : (ignoreCommand s).bitlen = s.bitlen := rfl
@[simp] theorem ignoreCommand_ephase (s : State) : (ignoreCommand s).ephase = s.ephase := rfl
@[simp] theorem ignoreCommand_dp (s : State) : (ignoreCommand s).dp = s.dp := rfl
@[simp] theorem ignoreCommand_mphase (s : State) : (ignoreCommand s).mphase = s.mphase := rfl
@[simp] theorem ignoreCommand_kbuf (s : State) : (ignoreCommand s).kbuf = s.kbuf := rfl
@[simp] theorem ignoreCommand_klen (s : State) : (ignoreCommand s).klen = s.klen := rfl
@[simp] theorem ignoreCommand_longkey (s : State) : (ignoreCommand s).longkey = s.longkey := rfl
@[simp] theorem ignoreCommand_idig (s : State) : (ignoreCommand s).idig = s.idig := rfl
@[simp] theorem ignoreCommand_session (s : State) : (ignoreCommand s).session = s.session := rfl
@[simp] theorem ignoreCommand_fault (s : State) : (ignoreCommand s).fault = s.fault := rfl
@[simp] theorem ignoreCommand_errcode (s : State) : (ignoreCommand s).errcode = s.errcode := rfl
@[simp] theorem ignoreCommand_rsp (s : State) : (ignoreCommand s).rsp = 0x00#8 := rfl
@[simp] theorem ignoreCommand_cmdReady (s : State) : (ignoreCommand s).cmdReady = s.cmdReady := rfl
@[simp] theorem ignoreCommand_rspValid (s : State) : (ignoreCommand s).rspValid = s.rspValid := rfl
@[simp] theorem ignoreCommand_host (s : State) : (ignoreCommand s).host = s.host := rfl
@[simp] theorem ignoreCommand_draws (s : State) : (ignoreCommand s).draws = s.draws := rfl

@[simp] theorem idleEdge_h (s : State) : (idleEdge s).h = s.h := rfl
@[simp] theorem idleEdge_buf (s : State) : (idleEdge s).buf = s.buf := rfl
@[simp] theorem idleEdge_cnt (s : State) : (idleEdge s).cnt = s.cnt := rfl
@[simp] theorem idleEdge_bitlen (s : State) : (idleEdge s).bitlen = s.bitlen := rfl
@[simp] theorem idleEdge_ephase (s : State) : (idleEdge s).ephase = s.ephase := rfl
@[simp] theorem idleEdge_dp (s : State) : (idleEdge s).dp = s.dp := rfl
@[simp] theorem idleEdge_mphase (s : State) : (idleEdge s).mphase = s.mphase := rfl
@[simp] theorem idleEdge_kbuf (s : State) : (idleEdge s).kbuf = s.kbuf := rfl
@[simp] theorem idleEdge_klen (s : State) : (idleEdge s).klen = s.klen := rfl
@[simp] theorem idleEdge_longkey (s : State) : (idleEdge s).longkey = s.longkey := rfl
@[simp] theorem idleEdge_idig (s : State) : (idleEdge s).idig = s.idig := rfl
@[simp] theorem idleEdge_session (s : State) : (idleEdge s).session = s.session := rfl
@[simp] theorem idleEdge_fault (s : State) : (idleEdge s).fault = s.fault := rfl
@[simp] theorem idleEdge_errcode (s : State) : (idleEdge s).errcode = s.errcode := rfl
@[simp] theorem idleEdge_rsp (s : State) : (idleEdge s).rsp = s.rsp := rfl
@[simp] theorem idleEdge_cmdReady (s : State) : (idleEdge s).cmdReady = true := rfl
@[simp] theorem idleEdge_rspValid (s : State) : (idleEdge s).rspValid = false := rfl
@[simp] theorem idleEdge_host (s : State) : (idleEdge s).host = s.host := rfl
@[simp] theorem idleEdge_draws (s : State) : (idleEdge s).draws = s.draws := rfl

@[simp] theorem markComplete_h (s : State) : (markComplete s).h = s.h := rfl
@[simp] theorem markComplete_buf (s : State) : (markComplete s).buf = s.buf := rfl
@[simp] theorem markComplete_cnt (s : State) : (markComplete s).cnt = s.cnt := rfl
@[simp] theorem markComplete_bitlen (s : State) : (markComplete s).bitlen = s.bitlen := rfl
@[simp] theorem markComplete_ephase (s : State) : (markComplete s).ephase = s.ephase := rfl
@[simp] theorem markComplete_dp (s : State) : (markComplete s).dp = s.dp := rfl
@[simp] theorem markComplete_mphase (s : State) : (markComplete s).mphase = s.mphase := rfl
@[simp] theorem markComplete_kbuf (s : State) : (markComplete s).kbuf = s.kbuf := rfl
@[simp] theorem markComplete_klen (s : State) : (markComplete s).klen = s.klen := rfl
@[simp] theorem markComplete_longkey (s : State) : (markComplete s).longkey = s.longkey := rfl
@[simp] theorem markComplete_idig (s : State) : (markComplete s).idig = s.idig := rfl
@[simp] theorem markComplete_session (s : State) : (markComplete s).session = s.session := rfl
@[simp] theorem markComplete_fault (s : State) : (markComplete s).fault = s.fault := rfl
@[simp] theorem markComplete_errcode (s : State) : (markComplete s).errcode = s.errcode := rfl
@[simp] theorem markComplete_rsp (s : State) : (markComplete s).rsp = s.rsp := rfl
@[simp] theorem markComplete_cmdReady (s : State) : (markComplete s).cmdReady = true := rfl
@[simp] theorem markComplete_rspValid (s : State) : (markComplete s).rspValid = true := rfl
@[simp] theorem markComplete_host (s : State) : (markComplete s).host = s.host := rfl
@[simp] theorem markComplete_draws (s : State) : (markComplete s).draws = s.draws := rfl

@[simp] theorem resetBlock_h (s : State) : (resetBlock s).h = Vector.replicate 5 0x00000000#32 := rfl
@[simp] theorem resetBlock_buf (s : State) : (resetBlock s).buf = zeroBytes := rfl
@[simp] theorem resetBlock_cnt (s : State) : (resetBlock s).cnt = 0#6 := rfl
@[simp] theorem resetBlock_bitlen (s : State) : (resetBlock s).bitlen = 0#64 := rfl
@[simp] theorem resetBlock_ephase (s : State) : (resetBlock s).ephase = .idle := rfl
@[simp] theorem resetBlock_dp (s : State) : (resetBlock s).dp = freeDatapath s.draws := rfl
@[simp] theorem resetBlock_mphase (s : State) : (resetBlock s).mphase = .idle := rfl
@[simp] theorem resetBlock_kbuf (s : State) : (resetBlock s).kbuf = zeroBytes := rfl
@[simp] theorem resetBlock_klen (s : State) : (resetBlock s).klen = 0#7 := rfl
@[simp] theorem resetBlock_longkey (s : State) : (resetBlock s).longkey = false := rfl
@[simp] theorem resetBlock_idig (s : State) : (resetBlock s).idig = freeInnerDigest s.draws := rfl
@[simp] theorem resetBlock_session (s : State) : (resetBlock s).session = .none := rfl
@[simp] theorem resetBlock_fault (s : State) : (resetBlock s).fault = false := rfl
@[simp] theorem resetBlock_errcode (s : State) : (resetBlock s).errcode = .none := rfl
@[simp] theorem resetBlock_rsp (s : State) : (resetBlock s).rsp = 0x00#8 := rfl
@[simp] theorem resetBlock_cmdReady (s : State) : (resetBlock s).cmdReady = false := rfl
@[simp] theorem resetBlock_rspValid (s : State) : (resetBlock s).rspValid = false := rfl
@[simp] theorem resetBlock_host (s : State) : (resetBlock s).host = s.host := rfl
@[simp] theorem resetBlock_draws (s : State) : (resetBlock s).draws = s.draws + 1 := rfl

@[simp] theorem compressBuffer_h (s : State) : (compressBuffer s).h = stateUpdate s.h (runRounds (loadDatapath s.h s.buf)).wv := rfl
@[simp] theorem compressBuffer_buf (s : State) : (compressBuffer s).buf = s.buf := rfl
@[simp] theorem compressBuffer_cnt (s : State) : (compressBuffer s).cnt = s.cnt := rfl
@[simp] theorem compressBuffer_bitlen (s : State) : (compressBuffer s).bitlen = s.bitlen := rfl
@[simp] theorem compressBuffer_ephase (s : State) : (compressBuffer s).ephase = s.ephase := rfl
@[simp] theorem compressBuffer_dp (s : State) : (compressBuffer s).dp = freeDatapath s.draws := rfl
@[simp] theorem compressBuffer_mphase (s : State) : (compressBuffer s).mphase = s.mphase := rfl
@[simp] theorem compressBuffer_kbuf (s : State) : (compressBuffer s).kbuf = s.kbuf := rfl
@[simp] theorem compressBuffer_klen (s : State) : (compressBuffer s).klen = s.klen := rfl
@[simp] theorem compressBuffer_longkey (s : State) : (compressBuffer s).longkey = s.longkey := rfl
@[simp] theorem compressBuffer_idig (s : State) : (compressBuffer s).idig = s.idig := rfl
@[simp] theorem compressBuffer_session (s : State) : (compressBuffer s).session = s.session := rfl
@[simp] theorem compressBuffer_fault (s : State) : (compressBuffer s).fault = s.fault := rfl
@[simp] theorem compressBuffer_errcode (s : State) : (compressBuffer s).errcode = s.errcode := rfl
@[simp] theorem compressBuffer_rsp (s : State) : (compressBuffer s).rsp = s.rsp := rfl
@[simp] theorem compressBuffer_cmdReady (s : State) : (compressBuffer s).cmdReady = s.cmdReady := rfl
@[simp] theorem compressBuffer_rspValid (s : State) : (compressBuffer s).rspValid = s.rspValid := rfl
@[simp] theorem compressBuffer_host (s : State) : (compressBuffer s).host = s.host := rfl
@[simp] theorem compressBuffer_draws (s : State) : (compressBuffer s).draws = s.draws + 1 := rfl

@[simp] theorem eInit_h (s : State) : (eInit s).h = initialH := rfl
@[simp] theorem eInit_buf (s : State) : (eInit s).buf = zeroBytes := rfl
@[simp] theorem eInit_cnt (s : State) : (eInit s).cnt = 0#6 := rfl
@[simp] theorem eInit_bitlen (s : State) : (eInit s).bitlen = 0#64 := rfl
@[simp] theorem eInit_ephase (s : State) : (eInit s).ephase = .absorb := rfl
@[simp] theorem eInit_dp (s : State) : (eInit s).dp = s.dp := rfl
@[simp] theorem eInit_mphase (s : State) : (eInit s).mphase = s.mphase := rfl
@[simp] theorem eInit_kbuf (s : State) : (eInit s).kbuf = s.kbuf := rfl
@[simp] theorem eInit_klen (s : State) : (eInit s).klen = s.klen := rfl
@[simp] theorem eInit_longkey (s : State) : (eInit s).longkey = s.longkey := rfl
@[simp] theorem eInit_idig (s : State) : (eInit s).idig = s.idig := rfl
@[simp] theorem eInit_session (s : State) : (eInit s).session = s.session := rfl
@[simp] theorem eInit_fault (s : State) : (eInit s).fault = s.fault := rfl
@[simp] theorem eInit_errcode (s : State) : (eInit s).errcode = s.errcode := rfl
@[simp] theorem eInit_rsp (s : State) : (eInit s).rsp = s.rsp := rfl
@[simp] theorem eInit_cmdReady (s : State) : (eInit s).cmdReady = s.cmdReady := rfl
@[simp] theorem eInit_rspValid (s : State) : (eInit s).rspValid = s.rspValid := rfl
@[simp] theorem eInit_host (s : State) : (eInit s).host = s.host := rfl
@[simp] theorem eInit_draws (s : State) : (eInit s).draws = s.draws := rfl

@[simp] theorem keepKeyByte_h (x : Byte) (s : State) : (keepKeyByte x s).h = s.h := rfl
@[simp] theorem keepKeyByte_buf (x : Byte) (s : State) : (keepKeyByte x s).buf = s.buf := rfl
@[simp] theorem keepKeyByte_cnt (x : Byte) (s : State) : (keepKeyByte x s).cnt = s.cnt := rfl
@[simp] theorem keepKeyByte_bitlen (x : Byte) (s : State) : (keepKeyByte x s).bitlen = s.bitlen := rfl
@[simp] theorem keepKeyByte_ephase (x : Byte) (s : State) : (keepKeyByte x s).ephase = s.ephase := rfl
@[simp] theorem keepKeyByte_dp (x : Byte) (s : State) : (keepKeyByte x s).dp = s.dp := rfl
@[simp] theorem keepKeyByte_mphase (x : Byte) (s : State) : (keepKeyByte x s).mphase = s.mphase := rfl
@[simp] theorem keepKeyByte_kbuf (x : Byte) (s : State) : (keepKeyByte x s).kbuf = poke s.kbuf s.klen.toNat x := rfl
@[simp] theorem keepKeyByte_klen (x : Byte) (s : State) : (keepKeyByte x s).klen = s.klen + 1#7 := rfl
@[simp] theorem keepKeyByte_longkey (x : Byte) (s : State) : (keepKeyByte x s).longkey = s.longkey := rfl
@[simp] theorem keepKeyByte_idig (x : Byte) (s : State) : (keepKeyByte x s).idig = s.idig := rfl
@[simp] theorem keepKeyByte_session (x : Byte) (s : State) : (keepKeyByte x s).session = s.session := rfl
@[simp] theorem keepKeyByte_fault (x : Byte) (s : State) : (keepKeyByte x s).fault = s.fault := rfl
@[simp] theorem keepKeyByte_errcode (x : Byte) (s : State) : (keepKeyByte x s).errcode = s.errcode := rfl
@[simp] theorem keepKeyByte_rsp (x : Byte) (s : State) : (keepKeyByte x s).rsp = s.rsp := rfl
@[simp] theorem keepKeyByte_cmdReady (x : Byte) (s : State) : (keepKeyByte x s).cmdReady = s.cmdReady := rfl
@[simp] theorem keepKeyByte_rspValid (x : Byte) (s : State) : (keepKeyByte x s).rspValid = s.rspValid := rfl
@[simp] theorem keepKeyByte_host (x : Byte) (s : State) : (keepKeyByte x s).host = s.host := rfl
@[simp] theorem keepKeyByte_draws (x : Byte) (s : State) : (keepKeyByte x s).draws = s.draws := rfl

end Sys2Proof.Machine
end

