-- ==== Sys2Proof/Laws/Engine.lean ====
section
/-! SUPPORT. Everything the hash engine's micro-operations can do: each one's cases, its frame, and the absorption of a
run of bytes that fits. -/

namespace Sys2Proof.Machine

/-- E_ABSORB faults exactly on the byte whose bit length would not fit. -/
theorem eAbsorb_error_iff (x : Byte) (s : State) (c : ErrCode) :
    eAbsorb x s = .error c ↔ c = .length ∧ s.cnt.toNat = 63 ∧ s.bitlen = lastBlockBits := by
  unfold eAbsorb
  split
  · rename_i h
    simp [h, eq_comm]
  · rename_i h
    split <;> simp [h]

/-- Everything E_ABSORB can do when it does not fault. -/
theorem eAbsorb_ok_cases {x : Byte} {s t : State} (h : eAbsorb x s = .ok t) :
    (s.cnt.toNat < 63 ∧ t = { s with buf := poke s.buf s.cnt.toNat x, cnt := s.cnt + 1#6 }) ∨
    (s.cnt.toNat = 63 ∧ s.bitlen ≠ lastBlockBits ∧
      t = { compressBuffer { s with buf := poke s.buf s.cnt.toNat x } with
        bitlen := s.bitlen + 512#64, cnt := 0#6 }) := by
  have hlt := s.cnt.isLt
  unfold eAbsorb at h
  split at h
  · cases h
  · rename_i h1
    split at h
    · rename_i h2
      have h63 : s.cnt.toNat = 63 := by omega
      refine .inr ⟨h63, fun hb => h1 ⟨h63, hb⟩, ?_⟩
      simpa using h.symm
    · rename_i h2
      refine .inl ⟨by omega, ?_⟩
      simpa using h.symm

theorem eAbsorb_buffers {x : Byte} {s : State} (h : s.cnt.toNat < 63) :
    eAbsorb x s = .ok { s with buf := poke s.buf s.cnt.toNat x, cnt := s.cnt + 1#6 } := by
  unfold eAbsorb
  rw [if_neg (by omega), if_neg (by omega)]

theorem eAbsorb_completes {x : Byte} {s : State} (h : s.cnt.toNat = 63) (hb : s.bitlen ≠ lastBlockBits) :
    eAbsorb x s = .ok { compressBuffer { s with buf := poke s.buf s.cnt.toNat x } with
        bitlen := s.bitlen + 512#64, cnt := 0#6 } := by
  unfold eAbsorb
  rw [if_neg (by simp [hb]), if_pos (by omega)]
  simp

/-- The fields no micro-operation writes: the controller's, the session's, the fault's, the response and the host's. -/
structure EngineFrame (s t : State) : Prop where
  mphase : t.mphase = s.mphase
  kbuf : t.kbuf = s.kbuf
  klen : t.klen = s.klen
  longkey : t.longkey = s.longkey
  idig : t.idig = s.idig
  session : t.session = s.session
  fault : t.fault = s.fault
  errcode : t.errcode = s.errcode
  rsp : t.rsp = s.rsp
  cmdReady : t.cmdReady = s.cmdReady
  rspValid : t.rspValid = s.rspValid
  host : t.host = s.host

theorem EngineFrame.refl (s : State) : EngineFrame s s := by
  constructor <;> rfl

theorem EngineFrame.trans {s t u : State} (h : EngineFrame s t) (k : EngineFrame t u) : EngineFrame s u where
  mphase := k.mphase.trans h.mphase
  kbuf := k.kbuf.trans h.kbuf
  klen := k.klen.trans h.klen
  longkey := k.longkey.trans h.longkey
  idig := k.idig.trans h.idig
  session := k.session.trans h.session
  fault := k.fault.trans h.fault
  errcode := k.errcode.trans h.errcode
  rsp := k.rsp.trans h.rsp
  cmdReady := k.cmdReady.trans h.cmdReady
  rspValid := k.rspValid.trans h.rspValid
  host := k.host.trans h.host

theorem eInit_frame (s : State) : EngineFrame s (eInit s) := by
  constructor <;> rfl

theorem eAbsorb_frame {x : Byte} {s t : State} (h : eAbsorb x s = .ok t) : EngineFrame s t := by
  obtain ⟨-, rfl⟩ | ⟨-, -, rfl⟩ := eAbsorb_ok_cases h <;> constructor <;> rfl

theorem eAbsorb_ephase {x : Byte} {s t : State} (h : eAbsorb x s = .ok t) : t.ephase = s.ephase := by
  obtain ⟨-, rfl⟩ | ⟨-, -, rfl⟩ := eAbsorb_ok_cases h <;> rfl

theorem padBuffer_frame (s : State) : EngineFrame s (padBuffer s) := by
  unfold padBuffer
  simp only
  split <;> constructor <;> rfl

theorem eFinal_frame (s : State) : EngineFrame s (eFinal s) :=
  (padBuffer_frame s).trans (by constructor <;> rfl)

@[simp] theorem eFinal_cnt (s : State) : (eFinal s).cnt = 0#6 := rfl
@[simp] theorem eFinal_bitlen (s : State) : (eFinal s).bitlen = messageBits s := rfl
@[simp] theorem eFinal_ephase (s : State) : (eFinal s).ephase = .done := rfl

@[simp] theorem absorbAll_nil (s : State) : absorbAll [] s = .ok s := rfl

theorem absorbAll_cons (x : Byte) (xs : List Byte) (s : State) :
    absorbAll (x :: xs) s = (eAbsorb x s).bind (absorbAll xs) := by
  simp only [absorbAll]
  cases eAbsorb x s <;> rfl

/-- A run of absorbed bytes keeps the frame of one. -/
theorem absorbAll_frame {xs : List Byte} {s t : State} (h : absorbAll xs s = .ok t) :
    EngineFrame s t ∧ t.ephase = s.ephase := by
  induction xs generalizing s with
  | nil =>
    cases h
    exact ⟨.refl _, rfl⟩
  | cons x xs ih =>
    simp only [absorbAll] at h
    split at h
    · rename_i u hu
      exact ⟨(eAbsorb_frame hu).trans (ih h).1, (ih h).2.trans (eAbsorb_ephase hu)⟩
    · cases h

theorem absorbAll_append (xs ys : List Byte) (s : State) :
    absorbAll (xs ++ ys) s = (absorbAll xs s).bind (absorbAll ys) := by
  induction xs generalizing s with
  | nil => rfl
  | cons x xs ih =>
    simp only [List.cons_append, absorbAll]
    cases eAbsorb x s with
    | ok t => exact ih t
    | error c => rfl

/-- The number of message bits absorbed so far, as an unbounded number (`10_state.md` R21). -/
def absorbedBits (s : State) : Nat := s.bitlen.toNat + 8 * s.cnt.toNat

/-- Whole blocks are counted, and the bit length fits (`10_state.md` R39 items 2 and 3). -/
def CountsFit (s : State) : Prop := s.bitlen.toNat % 512 = 0 ∧ absorbedBits s ≤ 2 ^ 64 - 8

/-- While the length fits, a byte is absorbed and counted. -/
theorem eAbsorb_counts {x : Byte} {s : State} (hw : CountsFit s) (hroom : absorbedBits s + 8 ≤ 2 ^ 64 - 8) :
    ∃ t, eAbsorb x s = .ok t ∧ CountsFit t ∧ absorbedBits t = absorbedBits s + 8 := by
  obtain ⟨hm, hfit⟩ := hw
  unfold absorbedBits at hfit hroom
  have hlt := s.cnt.isLt
  by_cases h63 : s.cnt.toNat = 63
  · have hb : s.bitlen ≠ lastBlockBits := by
      intro hb
      rw [hb] at hroom
      simp [lastBlockBits, h63] at hroom
    refine ⟨_, eAbsorb_completes h63 hb, ?_, ?_⟩
    · constructor
      · simp only [BitVec.toNat_add, BitVec.toNat_ofNat]
        omega
      · simp only [absorbedBits, BitVec.toNat_add, BitVec.toNat_ofNat]
        omega
    · simp only [absorbedBits, BitVec.toNat_add, BitVec.toNat_ofNat]
      omega
  · refine ⟨_, eAbsorb_buffers (by omega), ?_, ?_⟩
    · constructor
      · simpa using hm
      · simp only [absorbedBits, BitVec.toNat_add, BitVec.toNat_ofNat]
        omega
    · simp only [absorbedBits, BitVec.toNat_add, BitVec.toNat_ofNat]
      omega

/-- A byte that is absorbed keeps the counts sound. -/
theorem eAbsorb_keeps_counts {x : Byte} {s t : State} (hw : CountsFit s) (h : eAbsorb x s = .ok t) : CountsFit t := by
  obtain ⟨hm, hfit⟩ := hw
  unfold absorbedBits at hfit
  have hlt := s.cnt.isLt
  have hroom : absorbedBits s + 8 ≤ 2 ^ 64 - 8 := by
    by_contra hc
    unfold absorbedBits at hc
    have h63 : s.cnt.toNat = 63 := by omega
    have hb : s.bitlen = lastBlockBits := by
      apply BitVec.eq_of_toNat_eq
      simp only [lastBlockBits, BitVec.toNat_ofNat]
      omega
    rw [(eAbsorb_error_iff x s .length).mpr ⟨rfl, h63, hb⟩] at h
    cases h
  obtain ⟨u, hu, hc, -⟩ := eAbsorb_counts (x := x) ⟨hm, hfit⟩ hroom
  rw [h] at hu
  cases hu
  exact hc

/-- A run of bytes that fits is absorbed whole, and counted. -/
theorem absorbAll_counts {xs : List Byte} {s : State} (hw : CountsFit s)
    (hroom : absorbedBits s + 8 * xs.length ≤ 2 ^ 64 - 8) :
    ∃ t, absorbAll xs s = .ok t ∧ CountsFit t ∧ absorbedBits t = absorbedBits s + 8 * xs.length := by
  induction xs generalizing s with
  | nil => exact ⟨s, rfl, hw, by simp⟩
  | cons x xs ih =>
    simp only [List.length_cons] at hroom ⊢
    obtain ⟨t, ht, hwt, hbt⟩ := eAbsorb_counts (x := x) hw (by omega)
    obtain ⟨u, hu, hwu, hbu⟩ := ih hwt (by omega)
    refine ⟨u, by simp [absorbAll, ht, hu], hwu, by omega⟩

theorem eInit_counts (s : State) : CountsFit (eInit s) ∧ absorbedBits (eInit s) = 0 := by
  simp [CountsFit, absorbedBits]

/-- Sixty-four bytes after E_INIT make exactly one block. -/
theorem absorbAll_one_block {xs : List Byte} (hl : xs.length = 64) (s : State) :
    ∃ t, absorbAll xs (eInit s) = .ok t ∧ t.cnt = 0#6 ∧ t.bitlen = 512#64 := by
  obtain ⟨hw, hz⟩ := eInit_counts s
  obtain ⟨t, ht, hc, hb⟩ := absorbAll_counts (xs := xs) hw (by omega)
  obtain ⟨hm, -⟩ := hc
  have hlt := t.cnt.isLt
  unfold absorbedBits at hb hz
  refine ⟨t, ht, BitVec.eq_of_toNat_eq ?_, BitVec.eq_of_toNat_eq ?_⟩
  · simp only [BitVec.toNat_ofNat]
    omega
  · simp only [BitVec.toNat_ofNat]
    omega

/-- The bit length written at finalisation is the number of bits absorbed (R132). -/
theorem messageBits_toNat {s : State} (h : absorbedBits s ≤ 2 ^ 64 - 8) :
    (messageBits s).toNat = absorbedBits s := by
  have hlt := s.cnt.isLt
  unfold absorbedBits at h ⊢
  unfold messageBits
  simp only [BitVec.toNat_add, BitVec.toNat_mul, BitVec.toNat_ofNat, BitVec.toNat_setWidth]
  omega

end Sys2Proof.Machine
end

