-- ==== Sys2Proof/Laws/Blocks.lean ====
section
/-! SUPPORT. Blocks made of byte sequences, read byte by byte, and a run of bytes absorbed within one block. -/

namespace Sys2Proof.Machine

theorem peek_blockOf (l : List Byte) {j : Nat} (h : j < 64) : peek (blockOf l) j = l.getD j 0x00#8 := by
  simp [blockOf, peek_ofFn _ h]

theorem getD_append_zero (l r : List Byte) (j : Nat) :
    (l ++ r).getD j 0x00#8 = if j < l.length then l.getD j 0x00#8 else r.getD (j - l.length) 0x00#8 := by
  simp only [List.getD_eq_getElem?_getD, List.getElem?_append]
  split <;> rfl

theorem getD_take_zero (l : List Byte) (n j : Nat) :
    (l.take n).getD j 0x00#8 = if j < n then l.getD j 0x00#8 else 0x00#8 := by
  simp only [List.getD_eq_getElem?_getD, List.getElem?_take]
  split <;> rfl

theorem getD_replicate_zero (n j : Nat) : (List.replicate n 0x00#8).getD j 0x00#8 = 0x00#8 := by
  simp only [List.getD_eq_getElem?_getD, List.getElem?_replicate]
  split <;> rfl

theorem getD_toList_zero {n : Nat} (v : Vector Byte n) (j : Nat) : v.toList.getD j 0x00#8 = peek v j := by
  by_cases h : j < n
  · simp [List.getD_eq_getElem?_getD, h, peek_of_lt]
  · rw [peek_out _ (Nat.not_lt.mp h), List.getD_eq_getElem?_getD,
      List.getElem?_eq_none (by simpa using Nat.not_lt.mp h)]
    rfl

theorem getD_lengthBytes (v : BitVec 64) {j : Nat} (h : j < 8) :
    (lengthBytes v).getD j 0x00#8 = byteOfLength j v := by
  simp [lengthBytes, List.getD_eq_getElem?_getD, h]

@[simp] theorem lengthBytes_length (v : BitVec 64) : (lengthBytes v).length = 8 := by
  simp [lengthBytes]

@[simp] theorem liveBytes_length (s : State) : (liveBytes s).length = s.cnt.toNat := by
  have := s.cnt.isLt
  simp [liveBytes]
  omega

@[simp] theorem blockOf_toList (v : Vector Byte 64) : blockOf v.toList = v := by
  apply ext_peek
  intro j hj
  rw [peek_blockOf _ hj, getD_toList_zero]

@[simp] theorem blockOf_padBytes (k : Vector Byte 64) (pad : Byte) : blockOf (padBytes k pad) = padBlock k pad := by
  apply ext_peek
  intro j hj
  rw [peek_blockOf _ hj]
  simp [padBytes, padBlock, List.getD_eq_getElem?_getD, hj, peek_of_lt _ hj]

/-- The length field occupies bytes 56..63, most significant first (`20_memory.md` R53). -/
theorem peek_putLength (b : Vector Byte 64) (l : BitVec 64) (j : Nat) :
    peek (putLength b l) j = if 56 ≤ j ∧ j < 64 then byteOfLength (j - 56) l else peek b j := by
  unfold putLength
  rw [show List.range 8 = [0, 1, 2, 3, 4, 5, 6, 7] from rfl]
  simp only [List.foldl_cons, List.foldl_nil, peek_poke]
  by_cases h : 56 ≤ j ∧ j < 64
  · have : j = 56 ∨ j = 57 ∨ j = 58 ∨ j = 59 ∨ j = 60 ∨ j = 61 ∨ j = 62 ∨ j = 63 := by omega
    obtain rfl | rfl | rfl | rfl | rfl | rfl | rfl | rfl := this <;> simp
  · rw [if_neg h]
    repeat rw [if_neg (by omega)]

/-- The length L as the register computes it is BITLEN + 8 × CNT, modulo 2^64. -/
theorem messageBits_eq (s : State) : messageBits s = BitVec.ofNat 64 (s.bitlen.toNat + 8 * s.cnt.toNat) := by
  apply BitVec.eq_of_toNat_eq
  simp [messageBits, BitVec.toNat_add, BitVec.toNat_mul]

/-- Bytes that do not complete a block are appended to BUF at CNT (`20_memory.md` R54). -/
theorem absorbAll_within_block (xs : List Byte) (s : State) (h : s.cnt.toNat + xs.length ≤ 63) :
    ∃ b, absorbAll xs s = .ok { s with buf := b, cnt := s.cnt + BitVec.ofNat 6 xs.length } ∧
      ∀ j, peek b j = if s.cnt.toNat ≤ j ∧ j < s.cnt.toNat + xs.length then xs.getD (j - s.cnt.toNat) 0x00#8
        else peek s.buf j := by
  induction xs generalizing s with
  | nil =>
    refine ⟨s.buf, by simp, fun j => ?_⟩
    rw [if_neg (by simp)]
  | cons x xs ih =>
    simp only [List.length_cons] at h ⊢
    have h1 : (s.cnt + 1#6).toNat = s.cnt.toNat + 1 := by
      rw [BitVec.toNat_add]
      simp only [BitVec.toNat_ofNat]
      omega
    obtain ⟨b, hb, hp⟩ := ih { s with buf := poke s.buf s.cnt.toNat x, cnt := s.cnt + 1#6 }
      (by show (s.cnt + 1#6).toNat + _ ≤ _; omega)
    refine ⟨b, ?_, fun j => ?_⟩
    · simp only [absorbAll]
      rw [eAbsorb_buffers (by omega)]
      simp only [hb]
      congr 2
      apply BitVec.eq_of_toNat_eq
      simp only [BitVec.toNat_add, BitVec.toNat_ofNat]
      omega
    · rw [hp]
      simp only [h1, peek_poke]
      by_cases hj : s.cnt.toNat + 1 ≤ j ∧ j < s.cnt.toNat + 1 + xs.length
      · rw [if_pos hj, if_pos (by omega), show j - s.cnt.toNat = (j - (s.cnt.toNat + 1)) + 1 by omega]
        simp
      · rw [if_neg hj]
        by_cases h2 : s.cnt.toNat = j
        · rw [if_pos (by omega), if_pos (by omega)]
          subst h2
          simp
        · rw [if_neg (by omega), if_neg (by omega)]

end Sys2Proof.Machine
end

