-- ==== Sys2Proof/Laws/Decode.lean ====
section
/-! SUPPORT. The two fields of a command word, and the word of two fields. -/

namespace Sys2Proof

@[simp] theorem opField_packWord (op arg : Byte) : opField (packWord op arg) = op := by
  unfold opField packWord
  ext i hi
  have h1 : 8 + i < 16 := by omega
  have h2 : ¬ 8 + i < 8 := by omega
  simp [h1, h2, BitVec.getLsbD_eq_getElem hi]

@[simp] theorem argField_packWord (op arg : Byte) : argField (packWord op arg) = arg := by
  unfold argField packWord
  ext i hi
  have h1 : i < 16 := by omega
  simp [h1, hi]

/-- A word has no bits but its OP and its ARG (`30_encoding.md` R80). -/
theorem packWord_fields (w : CmdWord) : packWord (opField w) (argField w) = w := by
  unfold opField argField packWord
  ext i hi
  by_cases h : i < 8
  · simp [h, BitVec.getLsbD_eq_getElem hi]
  · have h2 : i - 8 < 8 := by omega
    simp [h, h2, show 8 + (i - 8) = i by omega, hi]

end Sys2Proof
end

