-- ==== Sys2Proof/Laws/Final.lean ====
section
/-! SUPPORT. What finalisation and a whole absorbed block do, as one equation each, down to the compression of a named
block (`41_hash_commands.md` R131, R132; `42_hmac_commands.md` R154 to R157). -/

namespace Sys2Proof.Machine

/-- Finalisation in one block: what BUF holds is the layout of R132 for CNT ≤ 55. -/
theorem finalBuffer_one (s : State) (h : s.cnt.toNat ≤ 55) :
    putLength (fill (poke s.buf s.cnt.toNat 0x80#8) (s.cnt.toNat + 1) 0x00#8 (55 - s.cnt.toNat)) (messageBits s)
      = blockOf (liveBytes s ++ [0x80#8] ++ List.replicate (55 - s.cnt.toNat) 0x00#8 ++ lengthField s) := by
  apply ext_peek
  intro j hj
  rw [peek_putLength, peek_fill, peek_poke, peek_blockOf _ hj]
  simp only [getD_append_zero, List.length_append, liveBytes_length, List.length_replicate, List.length_singleton,
    getD_replicate_zero, lengthField, ← messageBits_eq]
  unfold liveBytes
  simp only [getD_take_zero, getD_toList_zero]
  by_cases h1 : 56 ≤ j
  · rw [if_pos ⟨h1, hj⟩, if_neg (by omega), getD_lengthBytes _ (by omega)]
    congr 1
    omega
  · rw [if_neg (by omega), if_pos (by omega : j < s.cnt.toNat + 1 + (55 - s.cnt.toNat))]
    by_cases h2 : j < s.cnt.toNat
    · rw [if_neg (by omega), if_neg (by omega), if_pos (by omega), if_pos h2, if_pos h2]
    · by_cases h3 : j = s.cnt.toNat
      · subst h3
        simp
        intro
        omega
      · rw [if_pos (by omega), if_neg (by omega)]

/-- Finalisation in two blocks: the first. -/
theorem finalBuffer_first (s : State) :
    fill (poke s.buf s.cnt.toNat 0x80#8) (s.cnt.toNat + 1) 0x00#8 (63 - s.cnt.toNat)
      = blockOf (liveBytes s ++ [0x80#8] ++ List.replicate (63 - s.cnt.toNat) 0x00#8) := by
  have hlt := s.cnt.isLt
  apply ext_peek
  intro j hj
  rw [peek_fill, peek_poke, peek_blockOf _ hj]
  simp only [getD_append_zero, List.length_append, liveBytes_length, List.length_singleton, getD_replicate_zero]
  unfold liveBytes
  simp only [getD_take_zero, getD_toList_zero]
  by_cases h2 : j < s.cnt.toNat
  · rw [if_neg (by omega), if_neg (by omega), if_pos (by omega), if_pos h2, if_pos h2]
  · by_cases h3 : j = s.cnt.toNat
    · subst h3
      simp
      omega
    · rw [if_pos (by omega), if_neg (by omega)]

/-- Finalisation in two blocks: the second, whatever the first left. -/
theorem finalBuffer_second (b : Vector Byte 64) (s : State) :
    putLength (fill b 0 0x00#8 56) (messageBits s) = blockOf (List.replicate 56 0x00#8 ++ lengthField s) := by
  apply ext_peek
  intro j hj
  rw [peek_putLength, peek_fill, peek_blockOf _ hj]
  simp only [getD_append_zero, List.length_replicate, getD_replicate_zero, lengthField, ← messageBits_eq]
  by_cases h1 : 56 ≤ j
  · rw [if_pos ⟨h1, hj⟩, if_neg (by omega), getD_lengthBytes _ (by omega)]
  · rw [if_neg (by omega), if_pos (by omega), if_pos (by omega)]

/-- E_FINAL with CNT ≤ 55: one compression. -/
theorem eFinal_one {s : State} (h : s.cnt.toNat ≤ 55) :
    eFinal s = { compressBuffer { s with
        buf := blockOf (liveBytes s ++ [0x80#8] ++ List.replicate (55 - s.cnt.toNat) 0x00#8 ++ lengthField s) } with
      bitlen := messageBits s, cnt := 0#6, ephase := .done } := by
  rw [← finalBuffer_one s h]
  unfold eFinal padBuffer
  simp only [h, if_true]

/-- E_FINAL with CNT ≥ 56: two compressions. -/
theorem eFinal_two {s : State} (h : ¬ s.cnt.toNat ≤ 55) :
    eFinal s = { compressBuffer { compressBuffer { s with
          buf := blockOf (liveBytes s ++ [0x80#8] ++ List.replicate (63 - s.cnt.toNat) 0x00#8) } with
        buf := blockOf (List.replicate 56 0x00#8 ++ lengthField s) } with
      bitlen := messageBits s, cnt := 0#6, ephase := .done } := by
  unfold eFinal padBuffer
  simp only [h, if_false, finalBuffer_first, finalBuffer_second]

/-- Sixty-four bytes after E_INIT: the compression of exactly that block. -/
theorem absorbAll_block (xs : List Byte) (h : xs.length = 64) (s : State) :
    absorbAll xs (eInit s)
      = .ok { compressBuffer { eInit s with buf := blockOf xs } with bitlen := 512#64, cnt := 0#6 } := by
  obtain ⟨ys, y, rfl⟩ : ∃ ys y, xs = ys ++ [y] :=
    ⟨xs.dropLast, xs.getLast (by intro h0; simp [h0] at h), (List.dropLast_append_getLast _).symm⟩
  simp at h
  rw [absorbAll_append]
  obtain ⟨b, hb, hp⟩ := absorbAll_within_block ys (eInit s) (by simp; omega)
  have hcnt : ((eInit s).cnt + BitVec.ofNat 6 ys.length).toNat = 63 := by simp [h]
  rw [hb]
  simp only [Except.bind, absorbAll]
  rw [eAbsorb_completes hcnt (by simp [lastBlockBits])]
  have hbl : poke b ((eInit s).cnt + BitVec.ofNat 6 ys.length).toNat y = blockOf (ys ++ [y]) := by
    apply ext_peek
    intro j hj
    rw [hcnt, peek_poke, hp, peek_blockOf _ hj, getD_append_zero]
    by_cases h1 : j = 63
    · subst h1
      simp [h]
    · rw [if_neg (by omega), if_pos (by simp; omega), if_pos (by omega)]
      simp
  simp only [hbl]
  rfl

end Sys2Proof.Machine
end

