-- ==== Sys2Proof/Laws/Ops.lean ====
section
/-! SUPPORT. What the shared operations can do: a command, an accepted word, and a step always answer a next state. -/

namespace Sys2Proof.Machine

theorem runCommand_faulted (body : State → Except ErrCode State) {s : State} (h : s.fault = true) :
    runCommand body s = .next (ignoreCommand s) := by
  simp [runCommand, h]

theorem runCommand_ok {body : State → Except ErrCode State} {s t : State} (h : s.fault = false)
    (hb : body s = .ok t) : runCommand body s = .next t := by
  simp [runCommand, h, hb]

theorem runCommand_error {body : State → Except ErrCode State} {s : State} {c : ErrCode} (h : s.fault = false)
    (hb : body s = .error c) : runCommand body s = .next (raiseFault c s) := by
  simp [runCommand, h, hb]

/-- Everything a command can do: be ignored, take effect, or fault precisely. -/
theorem runCommand_cases (body : State → Except ErrCode State) (s : State) :
    (s.fault = true ∧ runCommand body s = .next (ignoreCommand s)) ∨
    (s.fault = false ∧ ∃ t, body s = .ok t ∧ runCommand body s = .next t) ∨
    (s.fault = false ∧ ∃ c, body s = .error c ∧ runCommand body s = .next (raiseFault c s)) := by
  cases hf : s.fault with
  | true => exact .inl ⟨rfl, runCommand_faulted body hf⟩
  | false =>
    cases hb : body s with
    | ok t => exact .inr (.inl ⟨rfl, t, rfl, runCommand_ok hf hb⟩)
    | error c => exact .inr (.inr ⟨rfl, c, rfl, runCommand_error hf hb⟩)

theorem runCommand_next (body : State → Except ErrCode State) (s : State) : ∃ t, runCommand body s = .next t := by
  obtain ⟨-, h⟩ | ⟨-, t, -, h⟩ | ⟨-, c, -, h⟩ := runCommand_cases body s
  · exact ⟨_, h⟩
  · exact ⟨_, h⟩
  · exact ⟨_, h⟩

/-- The body of a command. -/
def bodyOf : Instr → State → Except ErrCode State
  | .nop => nopBody
  | .hInit => hInitBody
  | .hAbsorb x => hAbsorbBody x
  | .hFinal => hFinalBody
  | .hRead k => hReadBody k
  | .mInit => mInitBody
  | .mKey x => mKeyBody x
  | .mKeyEnd => mKeyEndBody
  | .mMsg x => mMsgBody x
  | .mFinal => mFinalBody
  | .mRead k => mReadBody k

/-- Every meaning is its body, run as one atomic command. -/
theorem exec_eq_runCommand (i : Instr) (s : State) : exec i s = runCommand (bodyOf i) s := by
  cases i <;> rfl

/-- Everything an accepted word can do, as `runCommand_cases` says of its body. -/
theorem runWord_eq_runCommand (w : CmdWord) (s : State) :
    (∃ i, decode w = .ok i ∧ runWord w s = runCommand (bodyOf i) s) ∨
    (∃ r, decode w = .error r ∧ runWord w s = runCommand (fun _ => .error .illegal) s) := by
  unfold runWord
  cases h : decode w with
  | ok i => exact .inl ⟨i, rfl, exec_eq_runCommand i s⟩
  | error r => exact .inr ⟨r, rfl, rfl⟩

@[simp] theorem completed_next (s : State) : completed (.next s) = .next (markComplete s) := rfl

end Sys2Proof.Machine
end

