-- ==== Sys2Proof/Laws/PerInstr.lean ====
section
/-! SUPPORT. A fact about every command as syntax: it is well formed, and its word is in its row of
`spec/opcode_table.json`, whose mask and match values are written out here. -/

namespace Sys2Proof.Laws

/-- The mask and the match value of a command's row of the opcode table. -/
def MatchesTable.row : Instr → CmdWord × CmdWord
  | .nop => (0xFFFF#16, 0x0000#16)
  | .hInit => (0xFFFF#16, 0x0100#16)
  | .hAbsorb _ => (0xFF00#16, 0x0200#16)
  | .hFinal => (0xFFFF#16, 0x0300#16)
  | .hRead _ => (0xFF00#16, 0x0400#16)
  | .mInit => (0xFFFF#16, 0x1100#16)
  | .mKey _ => (0xFF00#16, 0x1200#16)
  | .mKeyEnd => (0xFFFF#16, 0x1300#16)
  | .mMsg _ => (0xFF00#16, 0x1400#16)
  | .mFinal => (0xFFFF#16, 0x1500#16)
  | .mRead _ => (0xFF00#16, 0x1600#16)

/-- A command is well formed, its word has its row's fixed bits, and the low byte of the word is its operand. -/
def MatchesTable.Statement (i : Instr) : Prop :=
  i.wf = true ∧ encode i &&& (MatchesTable.row i).1 = (MatchesTable.row i).2 ∧
  argField (encode i) = i.operand.getD 0x00#8

theorem byte_operand_wf (x : Byte) : decide (x.toNat < 256) = true := by
  have := x.isLt
  simp only [decide_eq_true_eq]
  omega

/-- The high byte of a packed word is its OP. -/
theorem packWord_and_high (op arg : Byte) : packWord op arg &&& 0xFF00#16 = op.setWidth 16 <<< 8 := by
  apply BitVec.eq_of_getLsbD_eq
  intro k hk
  have hm : (0xFF00#16).getLsbD k = decide (8 ≤ k) := by
    have : ∀ j : Fin 16, (0xFF00#16).getLsbD j = decide (8 ≤ j.val) := by decide
    exact this ⟨k, hk⟩
  by_cases h : k < 8
  · simp [packWord, hm, h]
  · simp [packWord, hm, hk, Nat.not_lt.mp h]

theorem MatchesTable.nop : MatchesTable.Statement .nop := ⟨by decide, by decide, by decide⟩
theorem MatchesTable.hInit : MatchesTable.Statement .hInit := ⟨by decide, by decide, by decide⟩
theorem MatchesTable.hAbsorb (x : Byte) : MatchesTable.Statement (.hAbsorb x) :=
  ⟨byte_operand_wf x, (packWord_and_high _ x).trans rfl, argField_packWord _ x⟩
theorem MatchesTable.hFinal : MatchesTable.Statement .hFinal := ⟨by decide, by decide, by decide⟩
theorem MatchesTable.hRead (k : Byte) : MatchesTable.Statement (.hRead k) :=
  ⟨byte_operand_wf k, (packWord_and_high _ k).trans rfl, argField_packWord _ k⟩
theorem MatchesTable.mInit : MatchesTable.Statement .mInit := ⟨by decide, by decide, by decide⟩
theorem MatchesTable.mKey (x : Byte) : MatchesTable.Statement (.mKey x) :=
  ⟨byte_operand_wf x, (packWord_and_high _ x).trans rfl, argField_packWord _ x⟩
theorem MatchesTable.mKeyEnd : MatchesTable.Statement .mKeyEnd := ⟨by decide, by decide, by decide⟩
theorem MatchesTable.mMsg (x : Byte) : MatchesTable.Statement (.mMsg x) :=
  ⟨byte_operand_wf x, (packWord_and_high _ x).trans rfl, argField_packWord _ x⟩
theorem MatchesTable.mFinal : MatchesTable.Statement .mFinal := ⟨by decide, by decide, by decide⟩
theorem MatchesTable.mRead (k : Byte) : MatchesTable.Statement (.mRead k) :=
  ⟨byte_operand_wf k, (packWord_and_high _ k).trans rfl, argField_packWord _ k⟩

end Sys2Proof.Laws
end

