-- ==== Sys2Proof/Laws/Sequence.lean ====
section
/-! SUPPORT. Sequences of commands: they always run to their end, and a longer one is its parts in turn. -/

namespace Sys2Proof.Machine

theorem exec_next (i : Instr) (s : State) : ∃ t, exec i s = .next t := by
  rw [exec_eq_runCommand]
  exact runCommand_next _ s

theorem runCommands_cons {i : Instr} {is : List Instr} {s t u : State} {out : List Byte} (h : exec i s = .next t)
    (hr : runCommands is t = .next (out, u)) : runCommands (i :: is) s = .next (t.rsp :: out, u) := by
  simp [runCommands, h, hr]

/-- A sequence runs to its end, with one RSP value for each command. -/
theorem runCommands_next (is : List Instr) (s : State) :
    ∃ out t, runCommands is s = .next (out, t) ∧ out.length = is.length := by
  induction is generalizing s with
  | nil => exact ⟨[], s, rfl, rfl⟩
  | cons i is ih =>
    obtain ⟨t, ht⟩ := exec_next i s
    obtain ⟨out, u, hr, hl⟩ := ih t
    exact ⟨_, _, runCommands_cons ht hr, by simp [hl]⟩

theorem runCommands_append {is js : List Instr} {s t u : State} {o p : List Byte}
    (h : runCommands is s = .next (o, t)) (k : runCommands js t = .next (p, u)) :
    runCommands (is ++ js) s = .next (o ++ p, u) := by
  induction is generalizing s o with
  | nil =>
    cases h
    exact k
  | cons i is ih =>
    obtain ⟨v, hv⟩ := exec_next i s
    obtain ⟨q, w, hq, -⟩ := runCommands_next is v
    rw [runCommands_cons hv hq] at h
    cases h
    exact runCommands_cons hv (ih hq)

end Sys2Proof.Machine
end

