-- ==== Sys2Proof/Laws/Signals.lean ====
section
/-! SUPPORT. No command reads the host's stream or the handshake outputs: a command run with others in their place gives
the same state with those in its place (`20_memory.md` R57, R58). -/

namespace Sys2Proof.Machine

/-- A state with another host stream and other handshake outputs. -/
def State.atPort (s : State) (host : List HostEvent) (ready valid : Bool) : State :=
  { s with host := host, cmdReady := ready, rspValid := valid }

@[simp] theorem State.atPort_kbuf (s : State) (e : List HostEvent) (r v : Bool) : (s.atPort e r v).kbuf = s.kbuf := rfl
@[simp] theorem State.atPort_idig (s : State) (e : List HostEvent) (r v : Bool) : (s.atPort e r v).idig = s.idig := rfl

theorem compressBuffer_atPort (s : State) (e : List HostEvent) (r v : Bool) :
    compressBuffer (s.atPort e r v) = (compressBuffer s).atPort e r v := rfl

theorem eAbsorb_atPort (x : Byte) (s : State) (e : List HostEvent) (r v : Bool) :
    eAbsorb x (s.atPort e r v) = (eAbsorb x s).map fun t => t.atPort e r v := by
  unfold eAbsorb
  rw [apply_ite (Except.map _), apply_ite (Except.map _)]
  rfl

theorem absorbAll_atPort (xs : List Byte) (s : State) (e : List HostEvent) (r v : Bool) :
    absorbAll xs (s.atPort e r v) = (absorbAll xs s).map fun t => t.atPort e r v := by
  induction xs generalizing s with
  | nil => rfl
  | cons x xs ih =>
    simp only [absorbAll, eAbsorb_atPort]
    cases eAbsorb x s with
    | ok t => exact ih t
    | error c => rfl

theorem eFinal_atPort (s : State) (e : List HostEvent) (r v : Bool) :
    eFinal (s.atPort e r v) = (eFinal s).atPort e r v := by
  have hp : padBuffer (s.atPort e r v) = (padBuffer s).atPort e r v := by
    unfold padBuffer
    simp only
    rw [apply_ite fun t : State => t.atPort e r v]
    rfl
  unfold eFinal
  rw [hp]
  rfl

theorem eInit_atPort (s : State) (e : List HostEvent) (r v : Bool) :
    eInit (s.atPort e r v) = (eInit s).atPort e r v := rfl

theorem startKeyHash_atPort (x : Byte) (s : State) (e : List HostEvent) (r v : Bool) :
    startKeyHash x (s.atPort e r v) = (startKeyHash x s).map fun t => t.atPort e r v := by
  have h := absorbAll_atPort s.kbuf.toList (eInit s) e r v
  unfold startKeyHash
  rw [eInit_atPort, State.atPort_kbuf, h]
  cases absorbAll s.kbuf.toList (eInit s) with
  | error c => rfl
  | ok t =>
    simp only [Except.map, eAbsorb_atPort]
    cases eAbsorb x t <;> rfl

theorem normaliseKey_atPort (s : State) (e : List HostEvent) (r v : Bool) :
    normaliseKey (s.atPort e r v) = (normaliseKey s).atPort e r v := by
  unfold normaliseKey
  rw [eFinal_atPort, apply_ite fun t : State => t.atPort e r v]
  rfl

theorem runOuter_atPort (s : State) (e : List HostEvent) (r v : Bool) :
    runOuter (s.atPort e r v) = (runOuter s).map fun t => t.atPort e r v := by
  have h := absorbAll_atPort (padBytes s.kbuf opadByte) (eInit s) e r v
  unfold runOuter
  rw [eInit_atPort, State.atPort_kbuf, h]
  cases absorbAll (padBytes s.kbuf opadByte) (eInit s) with
  | error c => rfl
  | ok t =>
    simp only [Except.map, absorbAll_atPort, State.atPort_idig]
    cases absorbAll t.idig.toList t with
    | error c => rfl
    | ok u => simp only [eFinal_atPort]

/-- A response commutes with the port. -/
theorem map_respond_atPort (x : Except ErrCode State) (e : List HostEvent) (r v : Bool) :
    (x.map fun t => t.atPort e r v).map (respond 0x00#8) = (x.map (respond 0x00#8)).map fun t => t.atPort e r v := by
  cases x <;> rfl

theorem bodyOf_atPort (i : Instr) (s : State) (e : List HostEvent) (r v : Bool) :
    bodyOf i (s.atPort e r v) = (bodyOf i s).map fun t => t.atPort e r v := by
  cases i with
  | nop => rfl
  | hInit => rfl
  | mInit => rfl
  | hAbsorb x =>
    simp only [bodyOf, hAbsorbBody, eAbsorb_atPort, map_respond_atPort, apply_ite (Except.map _)]
    rfl
  | mMsg x =>
    simp only [bodyOf, mMsgBody, eAbsorb_atPort, map_respond_atPort, apply_ite (Except.map _)]
    rfl
  | hFinal =>
    simp only [bodyOf, hFinalBody, eFinal_atPort, apply_ite (Except.map _)]
    rfl
  | hRead k =>
    simp only [bodyOf, hReadBody, apply_ite (Except.map _)]
    rfl
  | mRead k =>
    simp only [bodyOf, mReadBody, apply_ite (Except.map _)]
    rfl
  | mKey x =>
    simp only [bodyOf, mKeyBody, eAbsorb_atPort, startKeyHash_atPort, map_respond_atPort, apply_ite (Except.map _)]
    rfl
  | mKeyEnd =>
    have h := absorbAll_atPort (padBytes (normaliseKey s).kbuf ipadByte)
      (eInit { normaliseKey s with klen := 0#7, longkey := false }) e r v
    have hb : mKeyEndBody (s.atPort e r v) = if s.session ≠ .hmac then .error .session
        else if s.mphase ≠ .key then .error .phase
        else match absorbAll (padBytes (normaliseKey s).kbuf ipadByte)
            ((eInit { normaliseKey s with klen := 0#7, longkey := false }).atPort e r v) with
          | .error code => .error code
          | .ok u => .ok (respond 0x00#8 { u with mphase := .msg }) := by
      unfold mKeyEndBody
      rw [normaliseKey_atPort]
      rfl
    show mKeyEndBody _ = (mKeyEndBody s).map _
    rw [hb, h]
    simp only [mKeyEndBody, apply_ite (Except.map _)]
    congr 2
    cases absorbAll (padBytes (normaliseKey s).kbuf ipadByte)
      (eInit { normaliseKey s with klen := 0#7, longkey := false }) <;> rfl
  | mFinal =>
    have hf : finishInner (s.atPort e r v) = (finishInner s).atPort e r v := by
      unfold finishInner
      rw [eFinal_atPort]
      rfl
    have hb : mFinalBody (s.atPort e r v) = if s.session ≠ .hmac then .error .session
        else if s.mphase ≠ .msg then .error .phase
        else match (runOuter (finishInner s)).map fun t => t.atPort e r v with
          | .error code => .error code
          | .ok t => .ok (respond 0x00#8
              { t with kbuf := zeroBytes, mphase := .done, idig := freeInnerDigest s.draws }) := by
      unfold mFinalBody
      rw [hf, runOuter_atPort]
      rfl
    show mFinalBody _ = (mFinalBody s).map _
    rw [hb]
    simp only [mFinalBody, apply_ite (Except.map _)]
    congr 2
    cases runOuter (finishInner s) <;> rfl

/-- A command at another port is the command, at that port. -/
theorem runCommand_atPort {body : State → Except ErrCode State} {s : State} {e : List HostEvent} {r v : Bool}
    (h : body (s.atPort e r v) = (body s).map fun t => t.atPort e r v) {t : State} (ht : runCommand body s = .next t) :
    runCommand body (s.atPort e r v) = .next (t.atPort e r v) := by
  cases hf : s.fault with
  | true =>
    rw [runCommand_faulted _ hf] at ht
    cases ht
    exact runCommand_faulted _ hf
  | false =>
    cases hb : body s with
    | ok u =>
      rw [runCommand_ok hf hb] at ht
      cases ht
      exact runCommand_ok hf (by rw [h, hb]; rfl)
    | error c =>
      rw [runCommand_error hf hb] at ht
      cases ht
      exact runCommand_error hf (by rw [h, hb]; rfl)

theorem exec_atPort {i : Instr} {s t : State} (h : exec i s = .next t) (e : List HostEvent) (r v : Bool) :
    exec i (s.atPort e r v) = .next (t.atPort e r v) := by
  rw [exec_eq_runCommand] at h ⊢
  exact runCommand_atPort (bodyOf_atPort i s e r v) h

theorem runWord_atPort {w : CmdWord} {s t : State} (h : runWord w s = .next t) (e : List HostEvent) (r v : Bool) :
    runWord w (s.atPort e r v) = .next (t.atPort e r v) := by
  unfold runWord at h ⊢
  cases hd : decode w with
  | ok i =>
    rw [hd] at h
    exact exec_atPort h e r v
  | error c =>
    rw [hd] at h
    exact runCommand_atPort rfl h

/-- No meaning writes the port. -/
theorem atPort_self (s : State) : s.atPort s.host s.cmdReady s.rspValid = s := rfl

end Sys2Proof.Machine
end

