-- ==== Sys2Proof/Tests/Slice0.lean ====
section
/-! SUPPORT. The model's own tests. Every expected value comes from the spec: its encodings (`30_encoding.md`), its
tables, and its vectors (`95_test_vectors.md`, named V1 to V26 and P1 to P6 in the docstrings). After them, one or more
witnesses for each statement that has hypotheses. -/

namespace Sys2Proof.Tests

open Sys2Proof Sys2Proof.Machine

/-! ## Helpers -/

/-- A check of the state a command or a step answers. -/
def after (r : Result) (p : State → Bool) : Bool :=
  match r with
  | .next t => p t
  | .fault _ => false
  | .refused _ => false

/-- BUF or KBUF with these bytes first and zeros behind. -/
def bytes (l : List Byte) : Vector Byte 64 := blockOf l

/-- A hash session that has buffered these bytes of its current block. -/
def hashing (l : List Byte) (bitlen : BitVec 64) : State :=
  { State.reset with
    session := .hash, ephase := .absorb, h := initialH, buf := bytes l, cnt := BitVec.ofNat 6 l.length
    bitlen := bitlen }

/-- A finished hash session with this digest. -/
def hashed (h : Vector Word 5) : State := { State.reset with session := .hash, ephase := .done, h := h }

/-- An HMAC session that is taking a short key, these bytes so far. -/
def keying (l : List Byte) : State :=
  { State.reset with session := .hmac, mphase := .key, kbuf := bytes l, klen := BitVec.ofNat 7 l.length }

/-- An HMAC session that is hashing a long key. -/
def longKeying (l : List Byte) (bitlen : BitVec 64) : State :=
  { hashing l bitlen with session := .hmac, mphase := .key, klen := 64#7, longkey := true }

/-- An HMAC session that is taking its message. -/
def messaging (kbuf : Vector Byte 64) (h : Vector Word 5) (l : List Byte) (bitlen : BitVec 64) : State :=
  { hashing l bitlen with session := .hmac, mphase := .msg, kbuf := kbuf, h := h }

/-- A finished HMAC session with this tag. -/
def tagged (h : Vector Word 5) : State :=
  { State.reset with session := .hmac, mphase := .done, ephase := .done, h := h }

/-- A state whose host does this next. -/
def offered (s : State) (e : HostEvent) : State := { s with host := [e] }

/-- The greatest value BITLEN takes while absorbing, 2^64 − 512 (V25). -/
def fullBits : BitVec 64 := 0xFFFFFFFFFFFFFE00#64

/-- The digest of the empty message (V1). -/
def emptyDigest : Vector Word 5 := #v[0xDA39A3EE#32, 0x5E6B4B0D#32, 0x3255BFEF#32, 0x95601890#32, 0xAFD80709#32]

/-- The digest of "abc" (V2). -/
def abcDigest : Vector Word 5 := #v[0xA9993E36#32, 0x4706816A#32, 0xBA3E2571#32, 0x7850C26C#32, 0x9CD0D89D#32]

/-- H after M.KEYEND for the key "key" (V20). -/
def keyPadded : Vector Word 5 := #v[0x57B4B350#32, 0x61F380AB#32, 0x43E75E56#32, 0x411305A2#32, 0x588B71BA#32]

/-! ## Well-formedness: each check refuses an ill-formed statement (R90) -/

theorem test_wf_refuses_operand_on_format_n : (⟨.nop, some 1⟩ : Stmt).wf = false := by decide
theorem test_wf_refuses_zero_operand_on_format_n : (⟨.mFinal, some 0⟩ : Stmt).wf = false := by decide
theorem test_wf_refuses_missing_data_byte : (⟨.mKey, none⟩ : Stmt).wf = false := by decide
theorem test_wf_refuses_data_above_255 : (⟨.hAbsorb, some 256⟩ : Stmt).wf = false := by decide
theorem test_wf_refuses_missing_index : (⟨.mRead, none⟩ : Stmt).wf = false := by decide
theorem test_wf_refuses_index_above_255 : (⟨.hRead, some 256⟩ : Stmt).wf = false := by decide
theorem test_wf_accepts_255_and_an_index_above_19 :
    (⟨.mMsg, some 255⟩ : Stmt).wf = true ∧ (⟨.hRead, some 20⟩ : Stmt).wf = true := by decide

/-! ## Decoding: OP in bits 15..8, ARG in bits 7..0, each word written out from R83 (V19) -/

theorem test_decode_nop : decode 0b0000000000000000#16 = .ok .nop := by rfl
theorem test_decode_h_init : decode 0b0000000100000000#16 = .ok .hInit := by rfl
theorem test_decode_h_absorb : decode 0b0000001011111111#16 = .ok (.hAbsorb 0xFF#8) := by rfl
theorem test_decode_h_final : decode 0b0000001100000000#16 = .ok .hFinal := by rfl
theorem test_decode_h_read : decode 0b0000010000010011#16 = .ok (.hRead 19#8) := by rfl
theorem test_decode_m_init : decode 0b0001000100000000#16 = .ok .mInit := by rfl
theorem test_decode_m_key : decode 0b0001001010000000#16 = .ok (.mKey 0x80#8) := by rfl
theorem test_decode_m_keyend : decode 0b0001001100000000#16 = .ok .mKeyEnd := by rfl
theorem test_decode_m_msg : decode 0b0001010000000001#16 = .ok (.mMsg 0x01#8) := by rfl
theorem test_decode_m_final : decode 0b0001010100000000#16 = .ok .mFinal := by rfl
theorem test_decode_m_read : decode 0b0001011000000000#16 = .ok (.mRead 0x00#8) := by rfl
/-- ARG not 0 on a format-N command, and reserved OP values (V19). -/
theorem test_decode_rejects_by_name :
    decode 0x0301#16 = .error .nonzeroArg ∧ decode 0x15FF#16 = .error .nonzeroArg ∧
    decode 0x0500#16 = .error .reservedOpcode ∧ decode 0x1000#16 = .error .reservedOpcode ∧
    decode 0x1700#16 = .error .reservedOpcode ∧ decode 0xFFFF#16 = .error .reservedOpcode := by
  refine ⟨rfl, rfl, rfl, rfl, rfl, rfl⟩
/-- The opcode table's row of M.KEY, with its operand bits 1. -/
theorem test_decode_table_word : decodeTableWord 16 0x12FF = some (.mKey 0xFF#8) := by decide

/-! ## Assembler (R90, R91; P1) -/

theorem test_assemble_character :
    assembleLine ['H', '.', 'A', 'B', 'S', 'O', 'R', 'B', ' ', '\'', 'a', '\''] = .ok (some 0x0261#16) := by rfl
theorem test_assemble_hexadecimal_and_comment :
    assembleLine ['M', '.', 'K', 'E', 'Y', ' ', '0', 'x', '6', 'B', ' ', ';', 'k'] = .ok (some 0x126B#16) := by rfl
theorem test_assemble_operand_on_format_n_is_an_error :
    assembleLine ['N', 'O', 'P', ' ', '0'] = .error .illFormed := by rfl

/-! ## Operations -/

/-- V7. -/
theorem test_rotl :
    rotl 0x80000000#32 1 = 0x00000001#32 ∧ rotl 0x12345678#32 5 = 0x468ACF02#32 ∧
    rotl 0x12345678#32 30 = 0x048D159E#32 := by decide
/-- V9. -/
theorem test_mixing_functions :
    mix 19 0xFFFF0000#32 0x12345678#32 0x9ABCDEF0#32 = 0x1234DEF0#32 ∧
    mix 20 0xFFFF0000#32 0x12345678#32 0x9ABCDEF0#32 = 0x77778888#32 ∧
    mix 59 0xFFFF0000#32 0x12345678#32 0x9ABCDEF0#32 = 0x9ABC5670#32 ∧
    mix 60 0xFFFF0000#32 0x12345678#32 0x9ABCDEF0#32 = 0x77778888#32 := by decide
/-- V11: one round, with its carries. -/
theorem test_round :
    roundStep 0 ⟨0x67452301#32, 0xEFCDAB89#32, 0x98BADCFE#32, 0x10325476#32, 0xC3D2E1F0#32⟩ 0x61626380#32
      = ⟨0x0116FC33#32, 0x67452301#32, 0x7BF36AE2#32, 0x98BADCFE#32, 0x10325476#32⟩ := by decide
/-- V4: the first recurrence word of the schedule of the "abc" block. -/
theorem test_schedule :
    peek (schedule (blockOf ([0x61#8, 0x62#8, 0x63#8, 0x80#8] ++ List.replicate 59 0x00#8 ++ [0x18#8]))) 16
      = 0xC2C4C700#32 := by decide +kernel

/-! ## Commands, one step each -/

/-- P4: NOP while faulted changes nothing that STATUS shows. -/
theorem test_nop_keeps_a_fault :
    after (exec .nop { hashing [0x61#8] 0#64 with fault := true, errcode := .phase })
      (fun t => t.status == 0x0385#16 && t.rsp == 0x00#8 && t.cnt == 1#6) = true := by decide
/-- P1: after H.INIT. -/
theorem test_h_init :
    after (exec .hInit (tagged emptyDigest)) (fun t => t.status == 0x0005#16 && t.h == initialH && t.cnt == 0#6) = true
    := by decide
/-- V25: LENGTH, with nothing changed but the fault. -/
theorem test_h_absorb_faults_length :
    after (exec (.hAbsorb 0x00#8) (hashing (List.replicate 63 0x00#8) fullBits))
      (fun t => t.status == 0x0585#16 && t.cnt == 63#6 && t.bitlen == fullBits) = true := by decide
/-- P1: after H.FINAL. -/
theorem test_h_final_one_block :
    after (exec .hFinal (hashing [0x61#8, 0x62#8, 0x63#8] 0#64))
      (fun t => t.status == 0x0009#16 && t.h == abcDigest && t.bitlen == 24#64) = true := by decide +kernel
/-- V12: 56 bytes need a second block, which ends with their length, 448 bits. -/
theorem test_h_final_two_blocks :
    after (exec .hFinal (hashing (List.replicate 56 0x61#8) 0#64))
      (fun t => t.bitlen == 448#64 && t.draws == 2 && peek t.buf 0 == 0x00#8 && peek t.buf 62 == 0x01#8 &&
        peek t.buf 63 == 0xC0#8) = true := by decide
/-- P4: the last byte of the digest of the empty message. -/
theorem test_h_read_last_byte :
    after (exec (.hRead 19#8) (hashed emptyDigest)) (fun t => t.rsp == 0x09#8 && t.status == 0x0009#16) = true := by
  decide
/-- V18: index 20, and the priority of SESSION. -/
theorem test_h_read_faults :
    after (exec (.hRead 20#8) (hashed emptyDigest)) (fun t => t.status == 0x0489#16 && t.rsp == 0x00#8) = true ∧
    after (exec (.hRead 20#8) (keying [])) (fun t => t.status == 0x0292#16) = true := by decide
/-- P6: M.INIT abandons a hash. -/
theorem test_m_init :
    after (exec .mInit (hashing [0x78#8] 0#64))
      (fun t => t.status == 0x0012#16 && t.cnt == 0#6 && t.h == Vector.replicate 5 0x00000000#32) = true := by decide
/-- P5, V23: key byte 65, the first to complete a block. -/
theorem test_m_key_byte_65 :
    after (exec (.mKey 0x40#8) (keying ((List.range 64).map (BitVec.ofNat 8))))
      (fun t => t.status == 0x0016#16 && t.cnt == 1#6 && t.bitlen == 512#64 && t.kbuf == zeroBytes &&
        t.h == #v[0xB9AC757B#32, 0xBC297925#32, 0x2E227274#32, 0x06872F94#32, 0xCBEA56A1#32]) = true := by
  decide +kernel
/-- V17: LENGTH in M.KEY. -/
theorem test_m_key_faults_length :
    after (exec (.mKey 0x00#8) (longKeying (List.replicate 63 0x00#8) fullBits)) (fun t => t.status == 0x0596#16) = true
    := by decide
/-- P2: M.KEYEND for the key "key". -/
theorem test_m_keyend_short :
    after (exec .mKeyEnd (keying [0x6B#8, 0x65#8, 0x79#8]))
      (fun t => t.status == 0x0026#16 && t.h == keyPadded && t.klen == 0#7 && t.bitlen == 512#64) = true := by
  decide +kernel
/-- P5: M.KEYEND replaces the long key, 100 bytes, by its digest and 44 zeros. -/
theorem test_m_keyend_long :
    after (exec .mKeyEnd
        { longKeying ((List.range 36).map fun i => BitVec.ofNat 8 (64 + i)) 512#64 with
          h := #v[0xB9AC757B#32, 0xBC297925#32, 0x2E227274#32, 0x06872F94#32, 0xCBEA56A1#32] })
      (fun t => peek t.kbuf 0 == 0x1E#8 && peek t.kbuf 19 == 0xF5#8 && peek t.kbuf 20 == 0x00#8) = true := by
  decide +kernel
/-- P2: a message byte that is buffered. -/
theorem test_m_msg :
    after (exec (.mMsg 0x54#8) (messaging (bytes []) keyPadded [] 512#64))
      (fun t => t.cnt == 1#6 && t.bitlen == 512#64 && t.h == keyPadded && peek t.buf 0 == 0x54#8) = true := by decide
/-- V26: M.FINAL for the key "key" and the empty message. -/
theorem test_m_final :
    after (exec .mFinal (messaging (bytes [0x6B#8, 0x65#8, 0x79#8]) keyPadded [] 512#64))
      (fun t => t.status == 0x003A#16 && t.bitlen == 672#64 && t.kbuf == zeroBytes &&
        t.h == #v[0xF42BB0EE#32, 0xB018EBBD#32, 0x4597AE72#32, 0x13711EC6#32, 0x0760843F#32]) = true := by
  decide +kernel
/-- P6: the first byte of the tag, which H.READ does not show. -/
theorem test_m_read :
    after (exec (.mRead 0#8) (tagged #v[0xFBDB1D1B#32, 0x18AA6C08#32, 0x324B7D64#32, 0xB71FB763#32, 0x70690E1D#32]))
      (fun t => t.rsp == 0xFB#8) = true ∧
    after (exec (.hRead 0#8) (tagged emptyDigest)) (fun t => t.status == 0x02BA#16) = true := by decide
/-- V18: a reserved OP and a format-N command with an operand, as words. -/
theorem test_illegal_words :
    after (step (offered State.reset (.command 0x0500#16)))
      (fun t => t.status == 0x0180#16 && t.cmdReady && t.rspValid) = true ∧
    after (step (offered State.reset (.command 0x0101#16))) (fun t => t.status == 0x0180#16) = true := by decide
/-- P4: a reset edge clears the fault. -/
theorem test_reset_edge :
    after (step (offered { hashing [0x61#8] 0#64 with fault := true, errcode := .phase } .reset))
      (fun t => t.status == 0x0000#16 && t.cnt == 0#6 && !t.cmdReady && !t.rspValid) = true := by decide

/-! ## Witnesses: concrete data that meet the hypotheses of the statements, clause by clause -/

theorem witness_DecodingAnEncodedCommandGivesItBack :
    (Instr.nop).wf = true ∧ (Instr.hAbsorb 0xFF#8).wf = true ∧ (Instr.mRead 0xFF#8).wf = true := by decide

theorem witness_EncodingADecodedWordGivesItBack : decode 0x12FF#16 = .ok (.mKey 0xFF#8) := by rfl

theorem witness_NonzeroArgOnFormatNFaultsIllegal :
    (opField 0x15FF#16).toNat ∈ [0x00, 0x01, 0x03, 0x11, 0x13, 0x15] ∧ argField 0x15FF#16 ≠ 0x00#8 ∧
    (offered State.reset (.command 0x15FF#16)).fault = false ∧
    (offered State.reset (.command 0x15FF#16)).host = .command 0x15FF#16 :: [] := by decide

theorem witness_ReservedOpcodesFaultIllegal :
    (0x05 ≤ (opField 0x0500#16).toNat ∧ (opField 0x0500#16).toNat ≤ 0x10) ∧
    (0x05 ≤ (opField 0x1000#16).toNat ∧ (opField 0x1000#16).toNat ≤ 0x10) ∧ 0x17 ≤ (opField 0x1700#16).toNat ∧
    (offered State.reset (.command 0x1700#16)).fault = false ∧
    (offered State.reset (.command 0x1700#16)).host = .command 0x1700#16 :: [] := by decide

theorem witness_AssemblyFollowsTheStatement :
    (⟨.hRead, some 255⟩ : Stmt).wf = true ∧ (⟨.hRead, some 256⟩ : Stmt).wf = false := by decide

/-- The block, mid-way through a command, at a reset edge; then a host that offers a word. -/
theorem witness_ResetEdgeAbandonsTheCommandInProgress :
    (⟨true, true, 0x1500#16⟩ : Pins).rst = true ∧ (⟨false, true, 0x1500#16⟩ : Pins).rst = false ∧
    (⟨hashing [0x61#8] 0#64, some ⟨0x0300#16, 3⟩, .none, 1⟩ : Clocked).inFlight ≠ none := by decide

theorem witness_StepRunsTheDecodedCommand_command :
    (offered State.reset (.command 0x1100#16)).host = .command 0x1100#16 :: [] ∧ decode 0x1100#16 = .ok .mInit ∧
    ∃ t, exec .mInit { offered State.reset (.command 0x1100#16) with host := [] } = .next t :=
  ⟨rfl, rfl, exec_next _ _⟩

theorem witness_StepRunsTheDecodedCommand_illegal :
    decode 0x1101#16 = .error .nonzeroArg ∧ (offered State.reset (.command 0x1101#16)).fault = false ∧
    (offered { State.reset with fault := true, errcode := .illegal } (.command 0x1101#16)).fault = true :=
  ⟨rfl, rfl, rfl⟩

theorem witness_PlacedWordRunsNext :
    decodeTableWord 16 0x02FF = some (.hAbsorb 0xFF#8) ∧ ∃ t, exec (.hAbsorb 0xFF#8) (hashing [] 0#64) = .next t :=
  ⟨by decide, exec_next _ _⟩

theorem witness_BrokenHandshakeAcceptsSomeWord : (offered State.reset .unstable).host = .unstable :: [] := by rfl

theorem witness_IdleBlockHoldsItsState :
    (offered (hashing [0x61#8] 0#64) .idle).host = .idle :: [] ∧ (hashing [0x61#8] 0#64).host = [] := by decide

theorem witness_OfferedWordsRunInOrder :
    ([.hInit, .hAbsorb 0x61#8] : List Instr) ≠ [] ∧
    ∃ out t, runCommands [.hInit, .hAbsorb 0x61#8] State.reset = .next (out, t) := by
  obtain ⟨out, t, h, -⟩ := runCommands_next [.hInit, .hAbsorb 0x61#8] State.reset
  exact ⟨by decide, out, t, h⟩

theorem witness_HInitOpensAFreshHashSession : (longKeying [0x01#8] 512#64).fault = false := by rfl

theorem witness_AbsorbedByteIsBufferedOrCompletesABlock_hash :
    (hashing (List.replicate 62 0x00#8) fullBits).fault = false ∧
    Absorbs (.hAbsorb 0x00#8) 0x00#8 (hashing (List.replicate 62 0x00#8) fullBits) ∧
    (hashing (List.replicate 62 0x00#8) fullBits).cnt.toNat < 63 :=
  ⟨rfl, .inl ⟨rfl, rfl, rfl⟩, by decide⟩

theorem witness_AbsorbedByteIsBufferedOrCompletesABlock_message :
    (messaging (bytes []) keyPadded (List.replicate 63 0x00#8) 512#64).fault = false ∧
    Absorbs (.mMsg 0x01#8) 0x01#8 (messaging (bytes []) keyPadded (List.replicate 63 0x00#8) 512#64) ∧
    (messaging (bytes []) keyPadded (List.replicate 63 0x00#8) 512#64).cnt.toNat = 63 ∧
    (messaging (bytes []) keyPadded (List.replicate 63 0x00#8) 512#64).bitlen.toNat ≠ 2 ^ 64 - 512 :=
  ⟨rfl, .inr (.inl ⟨rfl, rfl, rfl⟩), by decide, by decide⟩

theorem witness_AbsorbedByteIsBufferedOrCompletesABlock_long_key :
    (longKeying (List.replicate 63 0x00#8) fullBits).fault = false ∧
    Absorbs (.mKey 0x01#8) 0x01#8 (longKeying (List.replicate 63 0x00#8) fullBits) ∧
    (longKeying (List.replicate 63 0x00#8) fullBits).cnt.toNat = 63 ∧
    (longKeying (List.replicate 63 0x00#8) fullBits).bitlen.toNat = 2 ^ 64 - 512 :=
  ⟨rfl, .inr (.inr ⟨rfl, rfl, rfl, rfl⟩), by decide, by decide⟩

/-- One final block at CNT = 55, two at CNT = 56. -/
theorem witness_HFinalCompressesTheFinalBlocks :
    (hashing (List.replicate 55 0x61#8) 0#64).fault = false ∧ (hashing (List.replicate 55 0x61#8) 0#64).session = .hash ∧
    (hashing (List.replicate 55 0x61#8) 0#64).ephase = .absorb ∧
    (hashing (List.replicate 56 0x61#8) 0#64).fault = false ∧ (hashing (List.replicate 56 0x61#8) 0#64).session = .hash ∧
    (hashing (List.replicate 56 0x61#8) 0#64).ephase = .absorb := by decide

/-- The last byte of the last word, in both kinds of session. -/
theorem witness_ReadsShowTheDigestByte :
    (4 : Nat) < 5 ∧ (3 : Nat) < 4 ∧ (hashed abcDigest).fault = false ∧ (hashed abcDigest).session = .hash ∧
    (hashed abcDigest).ephase = .done ∧ (tagged abcDigest).fault = false ∧ (tagged abcDigest).session = .hmac ∧
    (tagged abcDigest).mphase = .done := by decide

theorem witness_MInitOpensAWipedHmacSession : (hashing [0x78#8] 0#64).fault = false := by rfl

/-- The last key byte that fits, and the first that does not. -/
theorem witness_MKeyKeepsOrHashesTheKey_short :
    (keying (List.replicate 63 0x01#8)).fault = false ∧ (keying (List.replicate 63 0x01#8)).session = .hmac ∧
    (keying (List.replicate 63 0x01#8)).mphase = .key ∧ (keying (List.replicate 63 0x01#8)).longkey = false ∧
    (keying (List.replicate 63 0x01#8)).klen.toNat < 64 ∧ (keying (List.replicate 64 0x01#8)).fault = false ∧
    (keying (List.replicate 64 0x01#8)).session = .hmac ∧ (keying (List.replicate 64 0x01#8)).mphase = .key ∧
    (keying (List.replicate 64 0x01#8)).longkey = false ∧ (keying (List.replicate 64 0x01#8)).klen.toNat = 64 := by
  decide

theorem witness_MKeyKeepsOrHashesTheKey_long :
    (longKeying [0x01#8] 512#64).fault = false ∧ (longKeying [0x01#8] 512#64).session = .hmac ∧
    (longKeying [0x01#8] 512#64).mphase = .key ∧ (longKeying [0x01#8] 512#64).longkey = true ∧
    (∃ t, eAbsorb 0x02#8 (longKeying [0x01#8] 512#64) = .ok t) ∧
    (∃ c, eAbsorb 0x02#8 (longKeying (List.replicate 63 0x00#8) fullBits) = .error c) :=
  ⟨rfl, rfl, rfl, rfl, ⟨_, rfl⟩, ⟨.length, rfl⟩⟩

theorem witness_MKeyEndAbsorbsTheInnerPad :
    (keying []).fault = false ∧ (keying []).session = .hmac ∧ (keying []).mphase = .key ∧
    (keying []).longkey = false ∧ (longKeying [0x01#8] 512#64).fault = false ∧
    (longKeying [0x01#8] 512#64).session = .hmac ∧ (longKeying [0x01#8] 512#64).mphase = .key ∧
    (longKeying [0x01#8] 512#64).longkey = true := by decide

theorem witness_MFinalRunsTheOuterHash :
    (messaging (bytes [0x6B#8]) keyPadded [] 512#64).fault = false ∧
    (messaging (bytes [0x6B#8]) keyPadded [] 512#64).session = .hmac ∧
    (messaging (bytes [0x6B#8]) keyPadded [] 512#64).mphase = .msg := by decide

/-- A word that faults and one that does not. -/
theorem witness_WordsFaultExactlyAsTheTableSays :
    (offered (hashed abcDigest) (.command 0x0414#16)).fault = false ∧
    (offered (hashed abcDigest) (.command 0x0414#16)).host = .command 0x0414#16 :: [] ∧
    faultOfWord (opField 0x0414#16) (argField 0x0414#16) (offered (hashed abcDigest) (.command 0x0414#16)) = .index ∧
    faultOfWord (opField 0x0413#16) (argField 0x0413#16) (offered (hashed abcDigest) (.command 0x0413#16)) = .none := by
  decide

theorem witness_FaultedBlockIgnoresEveryWord :
    (offered { hashing [0x61#8] 0#64 with fault := true, errcode := .phase } (.command 0x0100#16)).fault = true ∧
    (offered { hashing [0x61#8] 0#64 with fault := true, errcode := .phase } (.command 0x0100#16)).host
      = .command 0x0100#16 :: [] := by decide

theorem witness_OnlyResetLeavesAFault :
    (offered { State.reset with fault := true, errcode := .illegal } (.command 0x1100#16)).fault = true ∧
    (∀ rest, (offered { State.reset with fault := true, errcode := .illegal } (.command 0x1100#16)).host
      ≠ .reset :: rest) ∧
    (∃ t, step (offered { State.reset with fault := true, errcode := .illegal } (.command 0x1100#16)) = .next t) ∧
    (offered { State.reset with fault := true, errcode := .illegal } .reset).host = .reset :: [] :=
  ⟨rfl, by intro rest; simp [offered], ⟨_, rfl⟩, rfl⟩

/-- A command of the list that runs, and one that faults. -/
theorem witness_HashCommandsLeaveTheController :
    Instr.hFinal ∈ ([.nop, .hAbsorb 0x61#8, .hFinal, .hRead 0x61#8] : List Instr) ∧
    (∃ t, exec .hFinal (hashing [0x61#8] 0#64) = .next t) ∧
    (∃ t, exec .hFinal (keying [0x61#8]) = .next t ∧ t.fault = true) :=
  ⟨by decide, exec_next _ _, ⟨_, rfl, rfl⟩⟩

theorem witness_ReadsLeaveEverythingButTheResponse :
    Instr.mRead 3#8 ∈ ([.nop, .hRead 3#8, .mRead 3#8] : List Instr) ∧
    (∃ t, exec (.mRead 3#8) (tagged abcDigest) = .next t ∧ t.fault = false) :=
  ⟨by decide, ⟨_, rfl, rfl⟩⟩

theorem witness_CommandsLeaveTheHostAndTheHandshake :
    (∃ t, exec (.mKey 0x01#8) (keying []) = .next t) ∧ Instr.mKey 0x01#8 ≠ .mFinal ∧ Instr.mKey 0x01#8 ≠ .hInit ∧
    Instr.mKey 0x01#8 ≠ .mInit :=
  ⟨exec_next _ _, by decide, by decide, by decide⟩

theorem witness_CommandsPerformTheirCompressions :
    (keying []).fault = false ∧ (∃ t, exec (.mKey 0x01#8) (keying []) = .next t ∧ t.fault = false ∧ t.draws = 0) ∧
    (∃ t, exec (.hAbsorb 0x01#8) (keying []) = .next t ∧ t.fault = true) :=
  ⟨rfl, ⟨_, rfl, rfl, rfl⟩, ⟨_, rfl, rfl⟩⟩

/-- The invariants of a hash session at the greatest length. -/
theorem witness_inv_hashing : (hashing (List.replicate 63 0x00#8) fullBits).Inv := by
  constructor <;> decide

/-- The invariants of an HMAC session that holds one key byte. -/
theorem witness_inv_keying : (keying [0x01#8]).Inv := by
  have hk : (keying [0x01#8]).kbuf = poke zeroBytes 0 0x01#8 := by decide
  constructor
  case key_padded =>
    intro _ _ j hj h64
    have h1 : 1 ≤ j := hj
    rw [hk, peek_poke, if_neg (by omega)]
    exact (by decide : ∀ i : Fin 64, peek zeroBytes i.val = 0x00#8) ⟨j, h64⟩
  all_goals decide

theorem witness_EveryStepKeepsTheInvariants :
    (hashing (List.replicate 63 0x00#8) fullBits).Inv ∧
    ∃ t, step (hashing (List.replicate 63 0x00#8) fullBits) = .next t :=
  ⟨witness_inv_hashing, _, rfl⟩

theorem witness_EveryReachableStateHasTheInvariants :
    ∃ t, Host.Core.run Sys2Proof.core 3 { State.reset with host := [.command 0x1100#16, .reset, .command 0x0200#16] }
      = .next t :=
  ⟨_, rfl⟩

/-- Two HMAC sessions with different keys, buffered bytes, inner states and transient registers. -/
theorem witness_OutputsRevealNoSecretByte :
    SameButSecrets (messaging (bytes [0x01#8]) keyPadded [0x61#8] 512#64)
      { messaging (bytes [0x02#8]) abcDigest [0x62#8] 512#64 with dp := freeDatapath 7, draws := 8 } ∧
    (messaging (bytes [0x01#8]) keyPadded [0x61#8] 512#64).kbuf ≠ (messaging (bytes [0x02#8]) abcDigest [0x62#8] 512#64).kbuf
    := by
  refine ⟨⟨rfl, rfl, rfl, rfl, rfl, rfl, rfl, rfl, rfl, rfl, rfl, rfl, ?_⟩, by decide⟩
  intro h
  exfalso
  obtain ⟨h, -⟩ | ⟨-, h⟩ := h <;> exact absurd h (by decide)

/-- Two hash sessions with one live byte, different bytes behind it, and different transient registers. -/
theorem witness_StaleBytesAndTransientsAreNeverRead :
    SameButStale (hashing [0x61#8] 0#64)
      { hashing [0x61#8] 0#64 with buf := bytes [0x61#8, 0xFF#8], dp := freeDatapath 7, draws := 8 } ∧
    (hashing [0x61#8] 0#64).buf ≠ bytes [0x61#8, 0xFF#8] := by
  refine ⟨⟨rfl, ?_, rfl, rfl, rfl, rfl, rfl, rfl, rfl, rfl, rfl, rfl, rfl, rfl, rfl⟩, by decide⟩
  intro j hj
  have h0 : j = 0 := by
    have : j < 1 := hj
    omega
  subst h0
  decide

theorem witness_RotationMovesBitsRound : 0 < 31 ∧ 31 < 32 ∧ 0 < 32 := by decide

/-- Both ends of every range of t. -/
theorem witness_MixingFunctionsActBitByBit :
    (0 < 20 ∧ 19 < 20) ∧ ((20 ≤ 20 ∧ 20 < 40) ∧ 20 ≤ 39 ∧ 39 < 40) ∧ (40 ≤ 40 ∧ 40 < 60) ∧ (40 ≤ 59 ∧ 59 < 60) ∧
    (60 ≤ 60 ∧ 60 < 80) ∧ 60 ≤ 79 ∧ 79 < 80 ∧ 31 < 32 := by decide

theorem witness_ScheduleFollowsTheRecurrence : 15 < 16 ∧ 16 ≤ 16 ∧ 16 < 80 ∧ 16 ≤ 79 ∧ 79 < 80 := by decide

theorem witness_RoundsAndUpdateAddModulo32Bits : 0 < 80 ∧ 79 < 80 := by decide

theorem witness_HashSequenceReturnsTheDigest :
    (tagged abcDigest).fault = false ∧ ([0x61#8, 0x62#8, 0x63#8] : List Byte).length ≤ 2 ^ 61 - 1 := by decide

theorem witness_HmacSequenceReturnsTheTag :
    (hashed abcDigest).fault = false ∧ (List.replicate 65 0x00#8).length ≤ 2 ^ 61 - 1 ∧
    ([0x61#8] : List Byte).length ≤ 2 ^ 61 - 65 := by decide

theorem witness_HashSequenceCostsItsCompressions :
    State.reset.fault = false ∧ (List.replicate 56 0x61#8).length ≤ 2 ^ 61 - 1 ∧
    ∃ out t, runCommands (expand (.hash (List.replicate 56 0x61#8))) State.reset = .next (out, t) := by
  obtain ⟨out, t, h, -⟩ := runCommands_next (expand (.hash (List.replicate 56 0x61#8))) State.reset
  exact ⟨rfl, by decide, out, t, h⟩

theorem witness_KeyNormalisationLaws :
    64 < (List.replicate 65 0x00#8).length ∧ (List.replicate 63 0x01#8).length ≤ 64 ∧
    1 ≤ 64 - (List.replicate 63 0x01#8).length := by decide

/-- A ready block that is offered a word; no edge after it, and LAT_CMD edges after it. -/
theorem witness_HandshakeRefinesTheTransaction :
    (⟨{ State.reset with cmdReady := true }, none, .none, 0⟩ : Clocked).inFlight = none ∧
    (⟨{ State.reset with cmdReady := true }, none, .none, 0⟩ : Clocked).offer = .none ∧
    (⟨{ State.reset with cmdReady := true }, none, .none, 0⟩ : Clocked).core.cmdReady = true ∧
    (⟨false, true, 0x0100#16⟩ : Pins).rst = false ∧ (⟨false, true, 0x0100#16⟩ : Pins).cmdValid = true ∧
    (∀ q ∈ ([] : List Pins), q.rst = false) ∧ ([] : List Pins).length < Config.latCmd (opField 0x0100#16) 0 ∧
    (∀ q ∈ List.replicate (Config.latCmd (opField 0x0100#16) 0) (⟨false, false, 0x0000#16⟩ : Pins), q.rst = false) ∧
    (List.replicate (Config.latCmd (opField 0x0100#16) 0) (⟨false, false, 0x0000#16⟩ : Pins)).length
      = Config.latCmd (opField 0x0100#16) 0 := by
  refine ⟨rfl, rfl, rfl, rfl, rfl, by simp, Nat.succ_pos _, ?_, by simp⟩
  intro q hq
  rw [List.eq_of_mem_replicate hq]

/-- A device of two instances, one of which steps. -/
theorem witness_InstancesShareNoState :
    (∃ e, stepDevice (0 : Fin 2) #v[State.reset, hashing [0x61#8] 0#64] = .next e) ∧ (1 : Fin 2) ≠ 0 :=
  ⟨⟨_, rfl⟩, by decide⟩

end Sys2Proof.Tests
end

section
/-! PROOF. The rotation (`00_scope.md` R10): for the counts the spec allows, `rotl` is the library's rotation, whose bits
below and from position `n` on come from the top and from the bottom of the word. -/

namespace Sys2Proof.Machine

theorem rotl_eq_rotateLeft (a : Word) {n : Nat} (hn : n < 32) : rotl a n = a.rotateLeft n := by
  rw [rotl, BitVec.rotateLeft_def, Nat.mod_eq_of_lt hn]

/-- The `n` low bits are the `n` high bits of `a`. -/
theorem getLsbD_rotl_of_lt (a : Word) {n i : Nat} (hn : n < 32) (hi : i < n) :
    (rotl a n).getLsbD i = a.getLsbD (32 - n + i) := by
  rw [rotl_eq_rotateLeft a hn, BitVec.getLsbD_rotateLeft_of_le hn, decide_eq_true hi, cond_true]

/-- The bits from `n` on are the low bits of `a`, moved up by `n`. -/
theorem getLsbD_rotl_of_le (a : Word) {n i : Nat} (hni : n ≤ i) (hi : i < 32) :
    (rotl a n).getLsbD i = a.getLsbD (i - n) := by
  have hn : n < 32 := by omega
  rw [rotl_eq_rotateLeft a hn, BitVec.getLsbD_rotateLeft_of_le hn, decide_eq_false (by omega), cond_false,
    decide_eq_true hi, Bool.true_and]

/-- Settles O38: `i + 32 - n` stays below 32 for the bits that come round from the top, and is taken modulo 32 for
the others. -/
theorem rotationMovesBitsRound : Obligations.RotationMovesBitsRound := by
  intro a n i _ hn hi
  rcases Nat.lt_or_ge i n with hin | hni
  · have hpos : (i + 32 - n) % 32 = 32 - n + i := by omega
    rw [hpos, getLsbD_rotl_of_lt a hn hin]
  · have hpos : (i + 32 - n) % 32 = i - n := by omega
    rw [hpos, getLsbD_rotl_of_le a hni hi]

end Sys2Proof.Machine
end

section
/-! PROOF. Reset and STATUS (`10_state.md` R42, R38): what `State.reset` holds, and each field of STATUS read back from
its place. -/

namespace Sys2Proof.Machine

theorem peek_replicate_zero {w n : Nat} (i : Nat) : peek (Vector.replicate n 0#w) i = 0#w := by
  unfold peek
  split
  · exact Vector.getElem_replicate _
  · rfl

/-- Settles O8: the register arrays are replicated zeros, and every other register is written out in `State.reset`. -/
theorem resetLeavesTheSpecsValues : Obligations.ResetLeavesTheSpecsValues :=
  ⟨fun k _ => peek_replicate_zero k, fun j _ => peek_replicate_zero j, rfl, rfl, rfl, rfl,
    fun j _ => peek_replicate_zero j, rfl, rfl, rfl, rfl, rfl, rfl, by decide⟩

/-- STATUS as the concatenation of its fields, the reserved bits 6 and 15:12 zero. -/
theorem status_eq_append (s : State) :
    s.status = 0#4 ++ (errcodeBits s.errcode ++ (BitVec.ofBool s.fault ++ (0#1 ++
      (mphaseBits s.mphase ++ (ephaseBits s.ephase ++ sessionBits s.session))))) := by
  apply BitVec.eq_of_getLsbD_eq
  intro i hi
  simp only [State.status, BitVec.getLsbD_or, BitVec.getLsbD_shiftLeft, BitVec.getLsbD_setWidth, BitVec.getLsbD_append]
  interval_cases i <;> simp

theorem toNat_append_eq_add {v w : Nat} (x : BitVec v) (y : BitVec w) : (x ++ y).toNat = x.toNat * 2 ^ w + y.toNat := by
  rw [BitVec.toNat_append, ← Nat.shiftLeft_add_eq_or_of_lt y.isLt, Nat.shiftLeft_eq]

/-- STATUS as a number: each field's code, weighted by its place. -/
theorem status_toNat (s : State) :
    s.status.toNat = (sessionBits s.session).toNat + 4 * (ephaseBits s.ephase).toNat + 16 * (mphaseBits s.mphase).toNat
      + 128 * s.fault.toNat + 256 * (errcodeBits s.errcode).toNat := by
  rw [status_eq_append]
  simp only [toNat_append_eq_add, BitVec.toNat_ofBool, BitVec.toNat_ofNat]
  omega

theorem status_field_toNat (s : State) (lo w : Nat) :
    (s.status.extractLsb' lo w).toNat = s.status.toNat / 2 ^ lo % 2 ^ w := by
  rw [BitVec.extractLsb'_toNat, Nat.shiftRight_eq_div_pow]

/-- Settles O16: each field is a digit of STATUS read as a number; FAULT and the reserved bit 6 are single
bits of the concatenation. -/
theorem statusShowsItsFields : Obligations.StatusShowsItsFields := by
  intro s
  have hsession := (sessionBits s.session).isLt
  have hephase := (ephaseBits s.ephase).isLt
  have hmphase := (mphaseBits s.mphase).isLt
  have herrcode := (errcodeBits s.errcode).isLt
  have hfault := s.fault.toNat_lt
  have hvalue := status_toNat s
  refine ⟨?session, ?ephase, ?mphase, ?reserved6, ?fault, ?errcode, ?reserved⟩
  case session =>
    calc (s.status.extractLsb' 0 2).toNat
      _ = (sessionBits s.session).toNat := by rw [status_field_toNat]; omega
      _ = _ := by cases s.session <;> rfl
  case ephase =>
    calc (s.status.extractLsb' 2 2).toNat
      _ = (ephaseBits s.ephase).toNat := by rw [status_field_toNat]; omega
      _ = _ := by cases s.ephase <;> rfl
  case mphase =>
    calc (s.status.extractLsb' 4 2).toNat
      _ = (mphaseBits s.mphase).toNat := by rw [status_field_toNat]; omega
      _ = _ := by cases s.mphase <;> rfl
  case errcode =>
    calc (s.status.extractLsb' 8 4).toNat
      _ = (errcodeBits s.errcode).toNat := by rw [status_field_toNat]; omega
      _ = _ := by cases s.errcode <;> rfl
  case reserved6 =>
    simp only [status_eq_append, BitVec.getLsbD_append]
    rfl
  case fault =>
    simp only [status_eq_append, BitVec.getLsbD_append]
    simp
  case reserved =>
    apply BitVec.eq_of_toNat_eq
    rw [status_field_toNat, BitVec.toNat_ofNat]
    omega

end Sys2Proof.Machine
end

section
/-! SUPPORT. What each command's body can do (`41_hash_commands.md` R134 to R138, `42_hmac_commands.md` R153 to R158):
one inversion lemma per body for the state it answers, and one fact about the faults, whose code is never NONE. -/

namespace Sys2Proof.Machine

/-- A guarded body answers a state only when its guard passes. -/
theorem guard_ok_iff {g : Prop} [Decidable g] {c : ErrCode} {r : Except ErrCode State} {t : State} :
    (if g then .error c else r) = .ok t ↔ ¬ g ∧ r = .ok t := by
  by_cases h : g <;> simp [h]

theorem guard_ne_error {g : Prop} [Decidable g] {c d : ErrCode} {r : Except ErrCode State} (hc : c ≠ d)
    (hr : r ≠ .error d) : (if g then .error c else r) ≠ .error d := by
  split
  · simpa using hc
  · exact hr

theorem except_map_ok_iff {f : State → State} {r : Except ErrCode State} {t : State} :
    r.map f = .ok t ↔ ∃ u, r = .ok u ∧ t = f u := by
  cases r <;> simp [Except.map, eq_comm]

theorem except_map_ne_error {f : State → State} {r : Except ErrCode State} {d : ErrCode} (hr : r ≠ .error d) :
    r.map f ≠ .error d := by
  cases r with
  | ok u => simp [Except.map]
  | error c => simpa [Except.map] using hr

/-! ### The states the bodies answer -/

theorem hAbsorbBody_ok {x : Byte} {s t : State} (h : hAbsorbBody x s = .ok t) :
    s.session = .hash ∧ s.ephase = .absorb ∧ ∃ u, eAbsorb x s = .ok u ∧ t = respond 0x00#8 u := by
  simpa only [hAbsorbBody, guard_ok_iff, except_map_ok_iff, not_not] using h

theorem hFinalBody_ok {s t : State} (h : hFinalBody s = .ok t) :
    s.session = .hash ∧ s.ephase = .absorb ∧ t = respond 0x00#8 (eFinal s) := by
  simpa only [hFinalBody, guard_ok_iff, Except.ok.injEq, not_not, eq_comm (b := t)] using h

theorem hReadBody_ok {k : Byte} {s t : State} (h : hReadBody k s = .ok t) :
    s.session = .hash ∧ s.ephase = .done ∧ indexInRange k = true ∧ t = respond (digestByte s.h k.toNat) s := by
  simpa only [hReadBody, guard_ok_iff, Except.ok.injEq, not_not, Bool.not_eq_false, eq_comm (b := t)] using h

theorem mMsgBody_ok {x : Byte} {s t : State} (h : mMsgBody x s = .ok t) :
    s.session = .hmac ∧ s.mphase = .msg ∧ ∃ u, eAbsorb x s = .ok u ∧ t = respond 0x00#8 u := by
  simpa only [mMsgBody, guard_ok_iff, except_map_ok_iff, not_not] using h

theorem mReadBody_ok {k : Byte} {s t : State} (h : mReadBody k s = .ok t) :
    s.session = .hmac ∧ s.mphase = .done ∧ indexInRange k = true ∧ t = respond (digestByte s.h k.toNat) s := by
  simpa only [mReadBody, guard_ok_iff, Except.ok.injEq, not_not, Bool.not_eq_false, eq_comm (b := t)] using h

/-- Key byte 65 as one run of absorbed bytes: the 64 held ones, and this one. -/
theorem startKeyHash_eq (x : Byte) (s : State) :
    startKeyHash x s
      = (absorbAll (s.kbuf.toList ++ [x]) (eInit s)).map fun u => { u with kbuf := zeroBytes, longkey := true } := by
  unfold startKeyHash
  rw [absorbAll_append]
  cases absorbAll s.kbuf.toList (eInit s) with
  | error c => rfl
  | ok t =>
    simp only [Except.bind, absorbAll]
    cases eAbsorb x t <;> rfl

/-- M.KEY's three branches (R154): the byte is kept, starts the hash of a long key, or joins it. -/
theorem mKeyBody_ok {x : Byte} {s t : State} (h : mKeyBody x s = .ok t) :
    s.session = .hmac ∧ s.mphase = .key ∧
    ((s.longkey = false ∧ s.klen.toNat < 64 ∧ t = respond 0x00#8 (keepKeyByte x s)) ∨
     (s.longkey = false ∧ 64 ≤ s.klen.toNat ∧ ∃ u, absorbAll (s.kbuf.toList ++ [x]) (eInit s) = .ok u ∧
       t = respond 0x00#8 { u with kbuf := zeroBytes, longkey := true }) ∨
     (s.longkey = true ∧ ∃ u, eAbsorb x s = .ok u ∧ t = respond 0x00#8 u)) := by
  simp only [mKeyBody, guard_ok_iff, not_not] at h
  obtain ⟨hs, hm, h⟩ := h
  refine ⟨hs, hm, ?_⟩
  split at h
  · rename_i hshort
    exact .inl ⟨hshort.1, hshort.2, by simpa [eq_comm] using h⟩
  · rename_i hfull
    split at h
    · rename_i hl
      obtain ⟨v, hv, rfl⟩ := except_map_ok_iff.mp h
      rw [startKeyHash_eq] at hv
      obtain ⟨u, hu, rfl⟩ := except_map_ok_iff.mp hv
      exact .inr (.inl ⟨hl, Nat.not_lt.mp fun hlt => hfull ⟨hl, hlt⟩, u, hu, rfl⟩)
    · rename_i hl
      exact .inr (.inr ⟨by simpa using hl, except_map_ok_iff.mp h⟩)

theorem mKeyEndBody_ok {s t : State} (h : mKeyEndBody s = .ok t) :
    s.session = .hmac ∧ s.mphase = .key ∧
    ∃ u, absorbAll (padBytes (normaliseKey s).kbuf ipadByte)
        (eInit { normaliseKey s with klen := 0#7, longkey := false }) = .ok u ∧
      t = respond 0x00#8 { u with mphase := .msg } := by
  simp only [mKeyEndBody, guard_ok_iff, not_not] at h
  obtain ⟨hs, hm, h⟩ := h
  split at h
  · cases h
  · rename_i u hu
    exact ⟨hs, hm, u, hu, by simpa [eq_comm] using h⟩

/-- The second invocation as one run of absorbed bytes, the outer pad and the inner digest, then E_FINAL (R157). -/
theorem runOuter_eq (s : State) :
    runOuter s = (absorbAll (padBytes s.kbuf opadByte ++ s.idig.toList) (eInit s)).map eFinal := by
  unfold runOuter
  rw [absorbAll_append]
  cases ht : absorbAll (padBytes s.kbuf opadByte) (eInit s) with
  | error c => rfl
  | ok t =>
    have hidig : t.idig = s.idig := (absorbAll_frame ht).1.idig
    simp only [Except.bind, hidig]
    cases absorbAll s.idig.toList t <;> rfl

theorem mFinalBody_ok {s t : State} (h : mFinalBody s = .ok t) :
    s.session = .hmac ∧ s.mphase = .msg ∧
    ∃ u, absorbAll (padBytes (finishInner s).kbuf opadByte ++ (finishInner s).idig.toList)
        (eInit (finishInner s)) = .ok u ∧
      t = respond 0x00#8 { eFinal u with kbuf := zeroBytes, mphase := .done, idig := freeInnerDigest s.draws } := by
  simp only [mFinalBody, guard_ok_iff, not_not] at h
  obtain ⟨hs, hm, h⟩ := h
  split at h
  · cases h
  · rename_i v hv
    rw [runOuter_eq] at hv
    obtain ⟨u, hu, rfl⟩ := except_map_ok_iff.mp hv
    exact ⟨hs, hm, u, hu, by simpa [eq_comm] using h⟩

/-! ### The codes of their faults -/

theorem eAbsorb_ne_error_none (x : Byte) (s : State) : eAbsorb x s ≠ .error .none := by
  intro h
  obtain ⟨hc, -⟩ := (eAbsorb_error_iff x s .none).mp h
  cases hc

theorem absorbAll_ne_error_none (xs : List Byte) (s : State) : absorbAll xs s ≠ .error .none := by
  induction xs generalizing s with
  | nil => simp
  | cons x xs ih =>
    rw [absorbAll_cons]
    have hx := eAbsorb_ne_error_none x s
    cases hr : eAbsorb x s with
    | ok t => exact ih t
    | error c => rwa [hr] at hx

/-- A fault of a command is never recorded as NONE (R180). -/
theorem bodyOf_ne_error_none (i : Instr) (s : State) : bodyOf i s ≠ .error .none := by
  cases i with
  | nop => simp [bodyOf, nopBody]
  | hInit => simp [bodyOf, hInitBody]
  | mInit => simp [bodyOf, mInitBody]
  | hAbsorb x =>
    exact guard_ne_error (by decide) (guard_ne_error (by decide) (except_map_ne_error (eAbsorb_ne_error_none x s)))
  | mMsg x =>
    exact guard_ne_error (by decide) (guard_ne_error (by decide) (except_map_ne_error (eAbsorb_ne_error_none x s)))
  | hFinal => exact guard_ne_error (by decide) (guard_ne_error (by decide) (by simp))
  | hRead k =>
    exact guard_ne_error (by decide) (guard_ne_error (by decide) (guard_ne_error (by decide) (by simp)))
  | mRead k =>
    exact guard_ne_error (by decide) (guard_ne_error (by decide) (guard_ne_error (by decide) (by simp)))
  | mKey x =>
    refine guard_ne_error (by decide) (guard_ne_error (by decide) ?_)
    split
    · simp
    · split
      · rw [startKeyHash_eq]
        exact except_map_ne_error (except_map_ne_error (absorbAll_ne_error_none _ _))
      · exact except_map_ne_error (eAbsorb_ne_error_none x s)
  | mKeyEnd =>
    refine guard_ne_error (by decide) (guard_ne_error (by decide) ?_)
    simp only
    split
    · rename_i c hc
      rw [← hc]
      exact absorbAll_ne_error_none _ _
    · simp
  | mFinal =>
    refine guard_ne_error (by decide) (guard_ne_error (by decide) ?_)
    split
    · rename_i c hc
      rw [← hc, runOuter_eq]
      exact except_map_ne_error (absorbAll_ne_error_none _ _)
    · simp

end Sys2Proof.Machine
end

section
/-! PROOF. Frames of the commands (`10_state.md` R34, R35, `20_memory.md` R58): no command writes the port, only the
INITs write SESSION, and only M.FINAL writes IDIG. -/

namespace Sys2Proof.Machine

/-- The registers that most commands leave: IDIG, SESSION and the fault's. -/
structure CommandFrame (s t : State) : Prop where
  idig : t.idig = s.idig
  session : t.session = s.session
  fault : t.fault = s.fault
  errcode : t.errcode = s.errcode

theorem CommandFrame.trans {s t u : State} (h : CommandFrame s t) (k : CommandFrame t u) : CommandFrame s u where
  idig := k.idig.trans h.idig
  session := k.session.trans h.session
  fault := k.fault.trans h.fault
  errcode := k.errcode.trans h.errcode

theorem EngineFrame.toCommand {s t : State} (h : EngineFrame s t) : CommandFrame s t :=
  ⟨h.idig, h.session, h.fault, h.errcode⟩

theorem normaliseKey_frame (s : State) : CommandFrame s (normaliseKey s) := by
  unfold normaliseKey
  split
  · exact ⟨(eFinal_frame s).idig, (eFinal_frame s).session, (eFinal_frame s).fault, (eFinal_frame s).errcode⟩
  · exact ⟨rfl, rfl, rfl, rfl⟩

theorem finishInner_session (s : State) : (finishInner s).session = s.session := (eFinal_frame s).session
theorem finishInner_fault (s : State) : (finishInner s).fault = s.fault := (eFinal_frame s).fault
theorem finishInner_errcode (s : State) : (finishInner s).errcode = s.errcode := (eFinal_frame s).errcode

/-- E_INIT and a run of absorbed bytes keep the engine's frame. -/
theorem absorbAll_eInit_frame {xs : List Byte} {s u : State} (h : absorbAll xs (eInit s) = .ok u) : EngineFrame s u :=
  (eInit_frame s).trans (absorbAll_frame h).1

/-- A body that is neither an INIT's nor M.FINAL's leaves IDIG, SESSION and the fault's registers. -/
theorem bodyOf_frame {i : Instr} {s t : State} (hInit : i ≠ .hInit) (mInit : i ≠ .mInit) (mFinal : i ≠ .mFinal)
    (h : bodyOf i s = .ok t) : CommandFrame s t := by
  cases i with
  | hInit => exact absurd rfl hInit
  | mInit => exact absurd rfl mInit
  | mFinal => exact absurd rfl mFinal
  | nop =>
    cases h
    exact ⟨rfl, rfl, rfl, rfl⟩
  | hAbsorb x =>
    obtain ⟨-, -, u, hu, rfl⟩ := hAbsorbBody_ok h
    exact { (eAbsorb_frame hu).toCommand with }
  | hFinal =>
    obtain ⟨-, -, rfl⟩ := hFinalBody_ok h
    exact { (eFinal_frame s).toCommand with }
  | hRead k =>
    obtain ⟨-, -, -, rfl⟩ := hReadBody_ok h
    exact ⟨rfl, rfl, rfl, rfl⟩
  | mKey x =>
    obtain ⟨-, -, ⟨-, -, rfl⟩ | ⟨-, -, u, hu, rfl⟩ | ⟨-, u, hu, rfl⟩⟩ := mKeyBody_ok h
    · exact ⟨rfl, rfl, rfl, rfl⟩
    · exact { (absorbAll_eInit_frame hu).toCommand with }
    · exact { (eAbsorb_frame hu).toCommand with }
  | mKeyEnd =>
    obtain ⟨-, -, u, hu, rfl⟩ := mKeyEndBody_ok h
    exact (normaliseKey_frame s).trans { (absorbAll_eInit_frame hu).toCommand with }
  | mMsg x =>
    obtain ⟨-, -, u, hu, rfl⟩ := mMsgBody_ok h
    exact { (eAbsorb_frame hu).toCommand with }
  | mRead k =>
    obtain ⟨-, -, -, rfl⟩ := mReadBody_ok h
    exact ⟨rfl, rfl, rfl, rfl⟩

theorem mFinalBody_session {s t : State} (h : mFinalBody s = .ok t) : t.session = s.session := by
  obtain ⟨-, -, u, hu, rfl⟩ := mFinalBody_ok h
  have f : EngineFrame (finishInner s) (eFinal u) := (absorbAll_eInit_frame hu).trans (eFinal_frame u)
  exact f.session.trans (finishInner_session s)

/-- Of the bodies only M.FINAL's writes IDIG, and only the INITs' write SESSION. -/
theorem bodyOf_idig_session {i : Instr} {s t : State} (h : bodyOf i s = .ok t) :
    (i ≠ .mFinal → t.idig = s.idig) ∧ (i ≠ .hInit → i ≠ .mInit → t.session = s.session) := by
  by_cases hInit : i = .hInit
  · subst hInit
    cases h
    exact ⟨fun _ => rfl, fun hne => absurd rfl hne⟩
  by_cases mInit : i = .mInit
  · subst mInit
    cases h
    exact ⟨fun _ => rfl, fun _ hne => absurd rfl hne⟩
  by_cases mFinal : i = .mFinal
  · subst mFinal
    exact ⟨fun hne => absurd rfl hne, fun _ _ => mFinalBody_session h⟩
  have f := bodyOf_frame hInit mInit mFinal h
  exact ⟨fun _ => f.idig, fun _ _ => f.session⟩

/-- A command leaves the host's stream and the handshake outputs: run at its own port it is the same command. -/
theorem exec_port {i : Instr} {s t : State} (h : exec i s = .next t) :
    t.host = s.host ∧ t.cmdReady = s.cmdReady ∧ t.rspValid = s.rspValid := by
  have hport := exec_atPort h s.host s.cmdReady s.rspValid
  rw [atPort_self, h] at hport
  injection hport with ht
  rw [ht]
  exact ⟨rfl, rfl, rfl⟩

/-- Settles O31: the port by `exec_port`; IDIG and SESSION by the cases of a command, ignored, effective or faulting. -/
theorem commandsLeaveTheHostAndTheHandshake : Obligations.CommandsLeaveTheHostAndTheHandshake := by
  intro i s t h
  obtain ⟨hhost, hready, hvalid⟩ := exec_port h
  refine ⟨hhost, hready, hvalid, ?_⟩
  rw [exec_eq_runCommand] at h
  obtain ⟨-, hr⟩ | ⟨-, u, hu, hr⟩ | ⟨-, c, -, hr⟩ := runCommand_cases (bodyOf i) s
  · cases hr.symm.trans h
    exact ⟨fun _ => rfl, fun _ _ => rfl⟩
  · cases hr.symm.trans h
    exact bodyOf_idig_session hu
  · cases hr.symm.trans h
    exact ⟨fun _ => rfl, fun _ _ => rfl⟩

end Sys2Proof.Machine
end

section
/-! PROOF. The invariants of `10_state.md` R39 and the range of KLEN (R32): at reset, over every step, and in every
reachable state. A command's next state is shown to have them by the phase it is in: one introduction lemma per phase of
a hash or an HMAC session, from the invariants that no phase conditions. -/

namespace Sys2Proof.Machine

/-! ### The invariants phase by phase -/

/-- The invariants of the engine's counts and of the fault's registers (R39 items 2, 3 and 10). -/
structure State.CountInv (s : State) : Prop where
  whole_blocks : s.ephase = .absorb → s.bitlen.toNat % 512 = 0
  bits_fit : absorbedBits s ≤ 2 ^ 64 - 8
  fault_code : s.fault = true ↔ s.errcode ≠ .none

theorem State.Inv.toCount {s : State} (h : s.Inv) : s.CountInv := ⟨h.whole_blocks, h.bits_fit, h.fault_code⟩

theorem cnt_toNat_le (s : State) : s.cnt.toNat ≤ 63 := Nat.le_of_lt_succ s.cnt.isLt

section Phases

variable {s : State} (counts : s.CountInv)
include counts

/-- A hash session, absorbing or finalised. -/
theorem inv_of_hash (hs : s.session = .hash) (hm : s.mphase = .idle) (he : s.ephase ≠ .idle) (hk : s.kbuf = zeroBytes)
    (hn : s.klen = 0#7) (hl : s.longkey = false) : s.Inv where
  __ := counts
  cnt_range := cnt_toNat_le s
  idle_iff := by simp [hs, he]
  hash_session := by simp [hm, hk, hn, hl]
  hmac_session := by simp [hs]
  msg_absorbs := by simp [hm]
  done_wiped := by simp [hm]
  longkey_absorbs := by simp [hl]
  key_padded := by simp [hm]
  no_key_no_count := by simp [hn, hl]
  longkey_wiped := by simp [hl]
  klen_range := by simp [hn]

/-- An HMAC session that holds a short key. -/
theorem inv_of_shortKey (hs : s.session = .hmac) (hm : s.mphase = .key) (he : s.ephase = .idle) (hl : s.longkey = false)
    (hn : s.klen.toNat ≤ 64) (hk : ∀ j, s.klen.toNat ≤ j → j < 64 → peek s.kbuf j = 0x00#8) : s.Inv where
  __ := counts
  cnt_range := cnt_toNat_le s
  idle_iff := by simp [hs, hm, he, hl]
  hash_session := by simp [hs]
  hmac_session := by simp [hm]
  msg_absorbs := by simp [hm]
  done_wiped := by simp [hm]
  longkey_absorbs := by simp [hl]
  key_padded := fun _ _ => hk
  no_key_no_count := by simp [hm]
  longkey_wiped := by simp [hl]
  klen_range := hn

/-- An HMAC session that hashes a long key. -/
theorem inv_of_longKey (hs : s.session = .hmac) (hm : s.mphase = .key) (he : s.ephase = .absorb) (hl : s.longkey = true)
    (hn : s.klen = 64#7) (hk : s.kbuf = zeroBytes) : s.Inv where
  __ := counts
  cnt_range := cnt_toNat_le s
  idle_iff := by simp [hs, he, hl]
  hash_session := by simp [hs]
  hmac_session := by simp [hm]
  msg_absorbs := by simp [hm]
  done_wiped := by simp [hm]
  longkey_absorbs := by simp [hm, he, hn]
  key_padded := by simp [hl]
  no_key_no_count := by simp [hm]
  longkey_wiped := by simp [hk]
  klen_range := by simp [hn]

/-- An HMAC session past its key: taking the message, or holding the tag with the key wiped. -/
theorem inv_of_keyed (hs : s.session = .hmac) (hn : s.klen = 0#7) (hl : s.longkey = false)
    (hm : (s.mphase = .msg ∧ s.ephase = .absorb) ∨ (s.mphase = .done ∧ s.ephase = .done ∧ s.kbuf = zeroBytes)) :
    s.Inv where
  __ := counts
  cnt_range := cnt_toNat_le s
  idle_iff := by obtain ⟨hm, he⟩ | ⟨hm, he, -⟩ := hm <;> simp [hs, hm, he]
  hash_session := by simp [hs]
  hmac_session := by obtain ⟨hm, -⟩ | ⟨hm, -, -⟩ := hm <;> simp [hm]
  msg_absorbs := by obtain ⟨-, he⟩ | ⟨hm, -, -⟩ := hm <;> simp [*]
  done_wiped := by obtain ⟨hm, -⟩ | ⟨-, he, hk⟩ := hm <;> simp [*]
  longkey_absorbs := by simp [hl]
  key_padded := by obtain ⟨hm, -⟩ | ⟨hm, -, -⟩ := hm <;> simp [hm]
  no_key_no_count := by simp [hn, hl]
  longkey_wiped := by simp [hl]
  klen_range := by simp [hn]

end Phases

/-! ### The engine's counts -/

theorem absorbAll_keeps_counts {xs : List Byte} {s t : State} (hw : CountsFit s) (h : absorbAll xs s = .ok t) :
    CountsFit t := by
  induction xs generalizing s with
  | nil =>
    cases h
    exact hw
  | cons x xs ih =>
    simp only [absorbAll] at h
    split at h
    · rename_i u hu
      exact ih (eAbsorb_keeps_counts hw hu) h
    · cases h

theorem absorbedBits_eFinal {s : State} (h : absorbedBits s ≤ 2 ^ 64 - 8) :
    absorbedBits (eFinal s) = absorbedBits s := by
  have hbits := messageBits_toNat h
  simpa [absorbedBits] using hbits

theorem State.Inv.countsFit {s : State} (h : s.Inv) (ha : s.ephase = .absorb) : CountsFit s :=
  ⟨h.whole_blocks ha, h.bits_fit⟩

/-- Finalisation leaves sound counts: BITLEN takes the bits that CNT gives up, and the phase is no longer ABSORB. -/
theorem eFinal_countInv {s : State} (h : absorbedBits s ≤ 2 ^ 64 - 8) (hf : s.fault = true ↔ s.errcode ≠ .none) :
    (eFinal s).CountInv where
  whole_blocks := by simp
  bits_fit := (absorbedBits_eFinal h).trans_le h
  fault_code := by rwa [(eFinal_frame s).fault, (eFinal_frame s).errcode]

/-- What E_INIT and a run of absorbed bytes leave in the engine. -/
theorem absorbAll_eInit_engine {xs : List Byte} {s u : State} (h : absorbAll xs (eInit s) = .ok u) :
    u.ephase = .absorb ∧ CountsFit u :=
  ⟨(absorbAll_frame h).2, absorbAll_keeps_counts (eInit_counts s).1 h⟩

theorem CountsFit.countInv {s : State} (h : CountsFit s) (hf : s.fault = true ↔ s.errcode ≠ .none) : s.CountInv :=
  ⟨fun _ => h.1, h.2, hf⟩

/-! ### Each command -/

/-- Any byte absorbed in any session keeps the invariants: only the counts change. -/
theorem eAbsorb_keeps_inv {x : Byte} {s t : State} (hs : s.Inv) (ha : s.ephase = .absorb) (h : eAbsorb x s = .ok t) :
    t.Inv := by
  have he := eAbsorb_ephase h
  obtain ⟨hblocks, hfit⟩ := eAbsorb_keeps_counts (hs.countsFit ha) h
  obtain ⟨mphase, kbuf, klen, longkey, -, session, fault, errcode, -, -, -, -⟩ := eAbsorb_frame h
  constructor
  case cnt_range => exact cnt_toNat_le t
  case whole_blocks => exact fun _ => hblocks
  case bits_fit => exact hfit
  case idle_iff => simpa only [he, session, mphase, longkey] using hs.idle_iff
  case hash_session => simpa only [session, mphase, klen, longkey, kbuf] using hs.hash_session
  case hmac_session => simpa only [session, mphase] using hs.hmac_session
  case msg_absorbs => simpa only [mphase, he] using hs.msg_absorbs
  case done_wiped => simpa only [mphase, he, kbuf] using hs.done_wiped
  case longkey_absorbs => simpa only [longkey, klen, mphase, he] using hs.longkey_absorbs
  case key_padded => simpa only [mphase, longkey, klen, kbuf] using hs.key_padded
  case fault_code => simpa only [fault, errcode] using hs.fault_code
  case no_key_no_count => simpa only [mphase, klen, longkey] using hs.no_key_no_count
  case longkey_wiped => simpa only [longkey, kbuf] using hs.longkey_wiped
  case klen_range => simpa only [klen] using hs.klen_range

theorem respond_keeps_inv {s : State} (v : Byte) (h : s.Inv) : (respond v s).Inv := { h with }

theorem hInitBody_inv {s t : State} (hs : s.Inv) (h : hInitBody s = .ok t) : t.Inv := by
  cases h
  exact inv_of_hash ⟨fun _ => rfl, by simp [absorbedBits], hs.fault_code⟩ rfl rfl (by simp) rfl rfl rfl

theorem mInitBody_inv {s t : State} (hs : s.Inv) (h : mInitBody s = .ok t) : t.Inv := by
  cases h
  exact inv_of_shortKey ⟨fun _ => rfl, by simp [absorbedBits], hs.fault_code⟩ rfl rfl rfl rfl (by simp)
    fun j _ _ => peek_zeroBytes j

theorem hFinalBody_inv {s t : State} (hs : s.Inv) (h : hFinalBody s = .ok t) : t.Inv := by
  obtain ⟨hhash, -, rfl⟩ := hFinalBody_ok h
  have f := eFinal_frame s
  obtain ⟨hm, hn, hl, hk⟩ := hs.hash_session hhash
  exact respond_keeps_inv _ (inv_of_hash (eFinal_countInv hs.bits_fit hs.fault_code) (f.session.trans hhash)
    (f.mphase.trans hm) (by simp) (f.kbuf.trans hk) (f.klen.trans hn) (f.longkey.trans hl))

/-- A kept key byte fills the first zero byte of KBUF. -/
theorem keepKeyByte_inv {x : Byte} {s : State} (hs : s.Inv) (hhmac : s.session = .hmac) (hkey : s.mphase = .key)
    (hl : s.longkey = false) (hn : s.klen.toNat < 64) : (keepKeyByte x s).Inv := by
  have hklen : (keepKeyByte x s).klen.toNat = s.klen.toNat + 1 := by
    simp only [keepKeyByte_klen, BitVec.toNat_add, BitVec.toNat_ofNat]
    omega
  refine inv_of_shortKey { hs.toCount with } hhmac hkey (hs.idle_iff.mpr (.inr ⟨hhmac, hkey, hl⟩)) hl (by omega) ?_
  intro j hj hj64
  rw [keepKeyByte_kbuf, peek_poke_ne _ (by omega)]
  exact hs.key_padded hkey hl j (by omega) hj64

/-- Key byte 65: whatever bytes the engine has been given, the key is now held by its hash alone, and KBUF is wiped. -/
theorem startKeyHash_inv {xs : List Byte} {s u : State} (hs : s.Inv) (hhmac : s.session = .hmac)
    (hkey : s.mphase = .key) (hn : 64 ≤ s.klen.toNat) (hu : absorbAll xs (eInit s) = .ok u) :
    State.Inv { u with kbuf := zeroBytes, longkey := true } := by
  have f := absorbAll_eInit_frame hu
  obtain ⟨he, hfit⟩ := absorbAll_eInit_engine hu
  have hklen : s.klen = 64#7 := BitVec.eq_of_toNat_eq (Nat.le_antisymm hs.klen_range hn)
  have counts := hfit.countInv (by rw [f.fault, f.errcode]; exact hs.fault_code)
  exact inv_of_longKey { counts with } (f.session.trans hhmac) (f.mphase.trans hkey) he rfl (f.klen.trans hklen) rfl

theorem mKeyBody_inv {x : Byte} {s t : State} (hs : s.Inv) (h : mKeyBody x s = .ok t) : t.Inv := by
  obtain ⟨hhmac, hkey, ⟨hl, hn, rfl⟩ | ⟨-, hn, u, hu, rfl⟩ | ⟨hl, u, hu, rfl⟩⟩ := mKeyBody_ok h
  · exact respond_keeps_inv _ (keepKeyByte_inv hs hhmac hkey hl hn)
  · exact respond_keeps_inv _ (startKeyHash_inv hs hhmac hkey hn hu)
  · obtain ⟨-, -, ha⟩ := hs.longkey_absorbs hl
    exact respond_keeps_inv _ (eAbsorb_keeps_inv hs ha hu)

theorem mKeyEndBody_inv {s t : State} (hs : s.Inv) (h : mKeyEndBody s = .ok t) : t.Inv := by
  obtain ⟨hhmac, -, u, hu, rfl⟩ := mKeyEndBody_ok h
  have f := absorbAll_eInit_frame hu
  have n := normaliseKey_frame s
  obtain ⟨he, hfit⟩ := absorbAll_eInit_engine hu
  have counts := hfit.countInv (by rw [f.fault, f.errcode, n.fault, n.errcode]; exact hs.fault_code)
  exact respond_keeps_inv _ (inv_of_keyed { counts with } (f.session.trans (n.session.trans hhmac)) f.klen f.longkey
    (.inl ⟨rfl, he⟩))

theorem mFinalBody_inv {s t : State} (hs : s.Inv) (h : mFinalBody s = .ok t) : t.Inv := by
  have hsession := mFinalBody_session h
  obtain ⟨hhmac, hmsg, u, hu, rfl⟩ := mFinalBody_ok h
  obtain ⟨-, -, hbits⟩ := absorbAll_eInit_engine hu
  obtain ⟨hn, hl⟩ := hs.no_key_no_count (by simp [hmsg])
  have a := absorbAll_eInit_frame hu
  have f : EngineFrame (finishInner s) (eFinal u) := a.trans (eFinal_frame u)
  have g := eFinal_frame s
  have counts := eFinal_countInv hbits (by
    rw [a.fault, a.errcode, finishInner_fault, finishInner_errcode]
    exact hs.fault_code)
  exact inv_of_keyed { counts with } (hsession.trans hhmac) (f.klen.trans (g.klen.trans hn))
    (f.longkey.trans (g.longkey.trans hl)) (.inr ⟨rfl, rfl, rfl⟩)

/-- Every command that takes effect keeps the invariants. -/
theorem bodyOf_keeps_inv {i : Instr} {s t : State} (hs : s.Inv) (h : bodyOf i s = .ok t) : t.Inv := by
  cases i with
  | nop =>
    cases h
    exact respond_keeps_inv _ hs
  | hInit => exact hInitBody_inv hs h
  | hAbsorb x =>
    obtain ⟨-, ha, u, hu, rfl⟩ := hAbsorbBody_ok h
    exact respond_keeps_inv _ (eAbsorb_keeps_inv hs ha hu)
  | hFinal => exact hFinalBody_inv hs h
  | hRead k =>
    obtain ⟨-, -, -, rfl⟩ := hReadBody_ok h
    exact respond_keeps_inv _ hs
  | mInit => exact mInitBody_inv hs h
  | mKey x => exact mKeyBody_inv hs h
  | mKeyEnd => exact mKeyEndBody_inv hs h
  | mMsg x =>
    obtain ⟨-, hmsg, u, hu, rfl⟩ := mMsgBody_ok h
    exact respond_keeps_inv _ (eAbsorb_keeps_inv hs (hs.msg_absorbs hmsg) hu)
  | mFinal => exact mFinalBody_inv hs h
  | mRead k =>
    obtain ⟨-, -, -, rfl⟩ := mReadBody_ok h
    exact respond_keeps_inv _ hs

/-! ### The step and the run -/

/-- Ignored, effective or faulting, a command whose body keeps the invariants keeps them. -/
theorem runCommand_keeps_inv {body : State → Except ErrCode State} {s t : State} (hs : s.Inv)
    (hok : ∀ u, body s = .ok u → u.Inv) (herr : body s ≠ .error .none) (h : runCommand body s = .next t) :
    t.Inv := by
  obtain ⟨-, hr⟩ | ⟨-, u, hu, hr⟩ | ⟨-, c, hc, hr⟩ := runCommand_cases body s
  · cases hr.symm.trans h
    exact { hs with }
  · cases hr.symm.trans h
    exact hok t hu
  · cases hr.symm.trans h
    have hcode : c ≠ .none := fun hnone => herr (hnone ▸ hc)
    exact { hs with fault_code := by simp [hcode] }

theorem runWord_keeps_inv {w : CmdWord} {s t : State} (hs : s.Inv) (h : runWord w s = .next t) : t.Inv := by
  obtain ⟨i, -, hr⟩ | ⟨-, -, hr⟩ := runWord_eq_runCommand w s
  · exact runCommand_keeps_inv hs (fun _ => bodyOf_keeps_inv hs) (bodyOf_ne_error_none i s) (hr.symm.trans h)
  · exact runCommand_keeps_inv hs (by simp) (by simp) (hr.symm.trans h)

theorem completed_eq_next {r : Result} {t : State} (h : completed r = .next t) :
    ∃ u, r = .next u ∧ t = markComplete u := by
  cases r with
  | next u =>
    cases h
    exact ⟨u, rfl, rfl⟩
  | fault r => cases h
  | refused r => cases h

theorem completed_runWord_keeps_inv {w : CmdWord} {s t : State} (hs : s.Inv) (h : completed (runWord w s) = .next t) :
    t.Inv := by
  obtain ⟨u, hu, rfl⟩ := completed_eq_next h
  exact { runWord_keeps_inv hs hu with }

/-- Settles O33: no session is open, so every item but the counts and the fault is void or about zero registers. -/
theorem invariantsHoldAtReset : Obligations.InvariantsHoldAtReset := by
  unfold Obligations.InvariantsHoldAtReset
  constructor
  case key_padded => exact fun hkey => nomatch hkey
  all_goals decide

/-- The host's stream and the draw counter are no part of the invariants. -/
theorem State.Inv.at_stream {s : State} (h : s.Inv) (host : List HostEvent) (draws : Nat) :
    State.Inv { s with host := host, draws := draws } := { h with }

theorem idleEdge_keeps_inv {s : State} (h : s.Inv) : (idleEdge s).Inv := { h with }

/-- A reset edge leaves the registers of the invariants as they are in `State.reset`. -/
theorem resetBlock_inv (s : State) : (resetBlock s).Inv := { invariantsHoldAtReset with }

/-- Settles O34, by the host's next event: an idle edge leaves the invariants' registers, a reset edge resets them, and
an accepted word runs as a command. -/
theorem everyStepKeepsTheInvariants : Obligations.EveryStepKeepsTheInvariants := by
  intro s t hs h
  unfold step at h
  cases hhost : s.host with
  | nil =>
    rw [hhost] at h
    cases h
    exact idleEdge_keeps_inv hs
  | cons event rest =>
    rw [hhost] at h
    cases event with
    | command w => exact completed_runWord_keeps_inv (hs.at_stream rest s.draws) h
    | unstable => exact completed_runWord_keeps_inv (hs.at_stream rest (s.draws + 1)) h
    | idle =>
      cases h
      exact idleEdge_keeps_inv (hs.at_stream rest s.draws)
    | reset =>
      cases h
      exact resetBlock_inv _

/-- What every step keeps, a run keeps. -/
theorem run_keeps_inv {n : Nat} {s t : State} (hs : s.Inv) (h : Host.Core.run Sys2Proof.core n s = .next t) :
    t.Inv := by
  induction n generalizing s with
  | zero =>
    cases h
    exact hs
  | succ n ih =>
    simp only [Host.Core.run] at h
    split at h
    · rename_i u hu
      exact ih (everyStepKeepsTheInvariants s u hs hu) h
    · cases h
    · cases h

/-- Settles O35: O33 and O34 along the run; the offered events are no part of the invariants. -/
theorem everyReachableStateHasTheInvariants : Obligations.EveryReachableStateHasTheInvariants :=
  fun events _ _ h => run_keeps_inv (invariantsHoldAtReset.at_stream events 0) h

end Sys2Proof.Machine
end

section
/-! PROOF. Stale BUF bytes, the transient registers, IDIG and the draw counter are never read (`20_memory.md` R55,
`10_state.md` R22, R25 to R27, R34). `SameButStale` is a relation on pairs of states: every micro-operation keeps it, by
one lemma each, and so does every command. A compression reads the whole of BUF, so the key fact is that whatever is
compressed is made of live bytes alone: the block that E_ABSORB completes, and the blocks of E_FINAL's layouts. -/

namespace Sys2Proof.Machine

/-- Two answers of a body that agree: states that differ at most in stale registers, or the same fault. -/
inductive SameAnswer : Except ErrCode State → Except ErrCode State → Prop
  | ok {s t : State} (h : SameButStale s t) : SameAnswer (.ok s) (.ok t)
  | error (c : ErrCode) : SameAnswer (.error c) (.error c)

/-- The same guard before bodies that agree. -/
theorem SameAnswer.guard {g g' : Prop} [Decidable g] [Decidable g'] {c : ErrCode} {q r : Except ErrCode State}
    (hg : g ↔ g') (h : SameAnswer q r) : SameAnswer (if g then .error c else q) (if g' then .error c else r) := by
  by_cases hp : g
  · rw [if_pos hp, if_pos (hg.mp hp)]
    exact .error c
  · rwa [if_neg hp, if_neg fun hp' => hp (hg.mpr hp')]

theorem SameAnswer.map {f f' : State → State} {q r : Except ErrCode State} (h : SameAnswer q r)
    (hf : ∀ s t, SameButStale s t → SameButStale (f s) (f' t)) : SameAnswer (q.map f) (r.map f') := by
  cases h with
  | ok h => exact .ok (hf _ _ h)
  | error c => exact .error c

theorem SameAnswer.bind {f f' : State → Except ErrCode State} {q r : Except ErrCode State} (h : SameAnswer q r)
    (hf : ∀ s t, SameButStale s t → SameAnswer (f s) (f' t)) : SameAnswer (q.bind f) (r.bind f') := by
  cases h with
  | ok h => exact hf _ _ h
  | error c => exact .error c

namespace SameButStale

variable {s t : State} (h : SameButStale s t)
include h

/-! ### What the two states agree in -/

theorem liveBytes_eq : liveBytes s = liveBytes t := by
  apply List.ext_getElem
  · rw [liveBytes_length, liveBytes_length, h.cnt]
  · intro j hs ht
    have hj : j < s.cnt.toNat := by rwa [liveBytes_length] at hs
    have hlt := s.cnt.isLt
    simpa [liveBytes, peek_of_lt, show j < 64 by omega] using h.live_bytes j hj

theorem lengthField_eq : lengthField s = lengthField t := by
  rw [lengthField, lengthField, h.bitlen, h.cnt]

/-- With CNT + 1 bytes live after a byte is written, the buffers agree in all of those. -/
theorem peek_poke_cnt {j : Nat} (x : Byte) (hj : j ≤ s.cnt.toNat) :
    peek (poke s.buf s.cnt.toNat x) j = peek (poke t.buf t.cnt.toNat x) j := by
  rw [peek_poke, peek_poke, ← h.cnt]
  split
  · rfl
  · rename_i hne
    have hlt := s.cnt.isLt
    exact h.live_bytes j (by omega)

/-- The byte at index 63 completes a block without a stale byte. -/
theorem full_block_eq (x : Byte) (h63 : s.cnt.toNat = 63) :
    poke s.buf s.cnt.toNat x = poke t.buf t.cnt.toNat x :=
  ext_peek fun _ hj => h.peek_poke_cnt x (by omega)

/-! ### The micro-operations -/

/-- Compressing the same block. -/
theorem compressBuffer_block (b : Vector Byte 64) :
    SameButStale (compressBuffer { s with buf := b }) (compressBuffer { t with buf := b }) :=
  { h with
    h := by rw [compressBuffer_h, compressBuffer_h, h.h]
    live_bytes := fun _ _ => rfl }

theorem respond (v : Byte) : SameButStale (respond v s) (respond v t) := { h with rsp := rfl }

theorem eInit : SameButStale (eInit s) (eInit t) :=
  { h with h := rfl, live_bytes := fun _ _ => rfl, cnt := rfl, bitlen := rfl, ephase := rfl }

theorem eAbsorb (x : Byte) : SameAnswer (eAbsorb x s) (eAbsorb x t) := by
  by_cases hlt : s.cnt.toNat < 63
  · rw [eAbsorb_buffers hlt, eAbsorb_buffers (h.cnt ▸ hlt)]
    refine .ok { h with cnt := by rw [h.cnt], live_bytes := fun j hj => h.peek_poke_cnt x ?_ }
    rw [BitVec.toNat_add, BitVec.toNat_ofNat] at hj
    omega
  · have h63 : s.cnt.toNat = 63 := by
      have := s.cnt.isLt
      omega
    have h63' : t.cnt.toNat = 63 := h.cnt ▸ h63
    by_cases hb : s.bitlen = lastBlockBits
    · rw [(eAbsorb_error_iff x s .length).mpr ⟨rfl, h63, hb⟩,
        (eAbsorb_error_iff x t .length).mpr ⟨rfl, h63', h.bitlen ▸ hb⟩]
      exact .error _
    · rw [eAbsorb_completes h63 hb, eAbsorb_completes h63' (h.bitlen ▸ hb), h.full_block_eq x h63]
      exact .ok { h.compressBuffer_block _ with
        live_bytes := fun _ _ => rfl, cnt := rfl, bitlen := by rw [h.bitlen] }

theorem absorbAll (xs : List Byte) : SameAnswer (absorbAll xs s) (absorbAll xs t) := by
  induction xs generalizing s t with
  | nil => exact .ok h
  | cons x xs ih =>
    rw [absorbAll_cons, absorbAll_cons]
    exact (h.eAbsorb x).bind fun _ _ => ih

/-- With CNT = 0 no byte is live. -/
theorem with_finished_counts (l : BitVec 64) :
    SameButStale { s with bitlen := l, cnt := 0#6, ephase := .done }
      { t with bitlen := l, cnt := 0#6, ephase := .done } :=
  { h with live_bytes := fun j hj => absurd hj (Nat.not_lt_zero j), cnt := rfl, bitlen := rfl, ephase := rfl }

theorem eFinal : SameButStale (eFinal s) (eFinal t) := by
  have hbits : messageBits s = messageBits t := by rw [messageBits, messageBits, h.bitlen, h.cnt]
  by_cases h55 : s.cnt.toNat ≤ 55
  · rw [eFinal_one h55, eFinal_one (h.cnt ▸ h55), h.liveBytes_eq, h.lengthField_eq, h.cnt, hbits]
    exact (h.compressBuffer_block _).with_finished_counts _
  · rw [eFinal_two h55, eFinal_two (h.cnt ▸ h55), h.liveBytes_eq, h.lengthField_eq, h.cnt, hbits]
    exact ((h.compressBuffer_block _).compressBuffer_block _).with_finished_counts _

/-! ### The parts of the long commands -/

theorem with_kbuf {k l : Vector Byte 64} (hkl : k = l) : SameButStale { s with kbuf := k } { t with kbuf := l } :=
  { h with kbuf := hkl }

theorem with_idig (i j : Vector Byte 20) : SameButStale { s with idig := i } { t with idig := j } := { h with }

theorem with_no_key_count :
    SameButStale { s with klen := 0#7, longkey := false } { t with klen := 0#7, longkey := false } :=
  { h with klen := rfl, longkey := rfl }

theorem keepKeyByte (x : Byte) : SameButStale (keepKeyByte x s) (keepKeyByte x t) :=
  { h with
    kbuf := by rw [keepKeyByte_kbuf, keepKeyByte_kbuf, h.kbuf, h.klen]
    klen := by rw [keepKeyByte_klen, keepKeyByte_klen, h.klen] }

theorem startKeyHash (x : Byte) : SameAnswer (startKeyHash x s) (startKeyHash x t) := by
  rw [startKeyHash_eq, startKeyHash_eq, h.kbuf]
  exact (h.eInit.absorbAll _).map fun _ _ hu => { hu with kbuf := rfl, longkey := rfl }

theorem normaliseKey : SameButStale (normaliseKey s) (normaliseKey t) := by
  simp only [Machine.normaliseKey, h.longkey]
  split
  · exact h.eFinal.with_kbuf (by rw [h.eFinal.h])
  · exact h

theorem finishInner : SameButStale (finishInner s) (finishInner t) := h.eFinal.with_idig _ _

/-- IDIG is written from H before M.FINAL reads it. -/
theorem finishInner_idig : (Machine.finishInner s).idig = (Machine.finishInner t).idig :=
  congrArg digest h.eFinal.h

end SameButStale

/-- M.KEYEND's normalised key and inner pad as one run of absorbed bytes (R155). -/
theorem mKeyEndBody_eq (s : State) :
    mKeyEndBody s = if s.session ≠ .hmac then .error .session
      else if s.mphase ≠ .key then .error .phase
      else (absorbAll (padBytes (normaliseKey s).kbuf ipadByte)
        (eInit { normaliseKey s with klen := 0#7, longkey := false })).map
          fun u => respond 0x00#8 { u with mphase := .msg } := by
  simp only [mKeyEndBody]
  congr 2
  cases absorbAll (padBytes (normaliseKey s).kbuf ipadByte)
    (eInit { normaliseKey s with klen := 0#7, longkey := false }) <;> rfl

/-- M.FINAL's second invocation, and the registers it leaves (R157). -/
theorem mFinalBody_eq (s : State) :
    mFinalBody s = if s.session ≠ .hmac then .error .session
      else if s.mphase ≠ .msg then .error .phase
      else (runOuter (finishInner s)).map fun u =>
        respond 0x00#8 { u with kbuf := zeroBytes, mphase := .done, idig := freeInnerDigest s.draws } := by
  simp only [mFinalBody]
  congr 2
  cases runOuter (finishInner s) <;> rfl

/-! ### The commands -/

namespace SameButStale

variable {s t : State} (h : SameButStale s t)
include h

theorem mKeyBody (x : Byte) : SameAnswer (mKeyBody x s) (mKeyBody x t) := by
  unfold Machine.mKeyBody
  refine .guard (by rw [h.session]) (.guard (by rw [h.mphase]) ?_)
  rw [h.longkey, h.klen]
  split
  · exact .ok ((h.keepKeyByte x).respond _)
  · split
    · exact (h.startKeyHash x).map fun _ _ hu => hu.respond _
    · exact (h.eAbsorb x).map fun _ _ hu => hu.respond _

theorem mKeyEndBody : SameAnswer (mKeyEndBody s) (mKeyEndBody t) := by
  rw [mKeyEndBody_eq, mKeyEndBody_eq, h.normaliseKey.kbuf]
  refine .guard (by rw [h.session]) (.guard (by rw [h.mphase]) ?_)
  exact (h.normaliseKey.with_no_key_count.eInit.absorbAll _).map fun _ _ hu => { hu with mphase := rfl, rsp := rfl }

theorem runOuter_finishInner : SameAnswer (runOuter (Machine.finishInner s)) (runOuter (Machine.finishInner t)) := by
  rw [runOuter_eq, runOuter_eq, h.finishInner.kbuf, h.finishInner_idig]
  exact (h.finishInner.eInit.absorbAll _).map fun _ _ hu => hu.eFinal

theorem mFinalBody : SameAnswer (mFinalBody s) (mFinalBody t) := by
  rw [mFinalBody_eq, mFinalBody_eq]
  refine .guard (by rw [h.session]) (.guard (by rw [h.mphase]) ?_)
  exact h.runOuter_finishInner.map fun _ _ hu => { hu with kbuf := rfl, mphase := rfl, rsp := rfl }

/-- Every body answers alike, whatever the stale registers hold. -/
theorem bodyOf (i : Instr) : SameAnswer (bodyOf i s) (bodyOf i t) := by
  cases i with
  | nop => exact .ok (h.respond _)
  | hInit =>
    exact .ok { h.eInit with session := rfl, mphase := rfl, kbuf := rfl, klen := rfl, longkey := rfl, rsp := rfl }
  | hAbsorb x =>
    exact .guard (by rw [h.session]) (.guard (by rw [h.ephase]) ((h.eAbsorb x).map fun _ _ hu => hu.respond _))
  | hFinal => exact .guard (by rw [h.session]) (.guard (by rw [h.ephase]) (.ok (h.eFinal.respond _)))
  | hRead k =>
    refine .guard (by rw [h.session]) (.guard (by rw [h.ephase]) (.guard Iff.rfl ?_))
    rw [h.h]
    exact .ok (h.respond _)
  | mInit =>
    exact .ok { h with
      session := rfl, mphase := rfl, kbuf := rfl, klen := rfl, longkey := rfl
      h := rfl, live_bytes := fun _ _ => rfl, cnt := rfl, bitlen := rfl, ephase := rfl, rsp := rfl }
  | mKey x => exact h.mKeyBody x
  | mKeyEnd => exact h.mKeyEndBody
  | mMsg x =>
    exact .guard (by rw [h.session]) (.guard (by rw [h.mphase]) ((h.eAbsorb x).map fun _ _ hu => hu.respond _))
  | mFinal => exact h.mFinalBody
  | mRead k =>
    refine .guard (by rw [h.session]) (.guard (by rw [h.mphase]) (.guard Iff.rfl ?_))
    rw [h.h]
    exact .ok (h.respond _)

/-- Ignored, effective or faulting, a command whose bodies answer alike leaves states that agree. -/
theorem runCommand {body : State → Except ErrCode State} (hbody : SameAnswer (body s) (body t)) :
    ∃ s' t', runCommand body s = .next s' ∧ runCommand body t = .next t' ∧ SameButStale s' t' := by
  cases hf : s.fault with
  | true =>
    exact ⟨_, _, runCommand_faulted body hf, runCommand_faulted body (h.fault ▸ hf), { h with rsp := rfl }⟩
  | false =>
    have hf' : t.fault = false := h.fault ▸ hf
    generalize hs : body s = q at hbody
    generalize ht : body t = r at hbody
    cases hbody with
    | ok hu => exact ⟨_, _, runCommand_ok hf hs, runCommand_ok hf' ht, hu⟩
    | error c =>
      exact ⟨_, _, runCommand_error hf hs, runCommand_error hf' ht,
        { h with fault := rfl, errcode := rfl, rsp := rfl }⟩

end SameButStale

/-- Settles O37: the bodies answer alike (`SameButStale.bodyOf`), since only live bytes are ever compressed. -/
theorem staleBytesAndTransientsAreNeverRead : Obligations.StaleBytesAndTransientsAreNeverRead := by
  intro i s t h
  rw [exec_eq_runCommand, exec_eq_runCommand]
  exact h.runCommand (h.bodyOf i)

end Sys2Proof.Machine
end

section
/-! PROOF. The step on an offered word (`20_memory.md` R57, R58, R61, `30_encoding.md` R84): it runs the decoded command
and completes it; offered one after another, the words of commands run in order. -/

namespace Sys2Proof

/-- Decoding reads back the two fields that encoding packs (R80, R83). -/
theorem decode_encode (i : Instr) : decode (encode i) = .ok i := by
  rw [decode, encode, opField_packWord, argField_packWord]
  cases i <;> rfl

theorem decodeTableWord_eq_some {nbits w : Nat} {i : Instr} (h : decodeTableWord nbits w = some i) :
    decode (BitVec.ofNat 16 (w % 2 ^ nbits)) = .ok i := by
  unfold decodeTableWord at h
  split at h
  · rename_i j hj
    cases h
    exact hj
  · cases h

namespace Machine

theorem runWord_of_ok {w : CmdWord} {i : Instr} (h : decode w = .ok i) (s : State) : runWord w s = exec i s := by
  rw [runWord, h]

theorem runWord_of_error {w : CmdWord} {r : Reject} (h : decode w = .error r) (s : State) :
    runWord w s = execIllegal s := by
  rw [runWord, h]

theorem runWord_next (w : CmdWord) (s : State) : ∃ t, runWord w s = .next t := by
  obtain ⟨i, -, h⟩ | ⟨r, -, h⟩ := runWord_eq_runCommand w s
  · exact h ▸ runCommand_next _ s
  · exact h ▸ runCommand_next _ s

/-- A step on an offered word takes the word off the stream, runs it and completes it. -/
theorem step_of_command {w : CmdWord} {s : State} {rest : List HostEvent} (h : s.host = .command w :: rest) :
    step s = completed (runWord w { s with host := rest }) := by
  rw [step, h]

/-- Settles O10: the word runs as its command, or as the command whose body raises ILLEGAL. -/
theorem stepRunsTheDecodedCommand : Obligations.StepRunsTheDecodedCommand := by
  intro w s rest hhost
  rw [step_of_command hhost]
  refine ⟨fun i t hw ht => ?_, fun r hw hf => ?_, fun r hw hf => ?_⟩
  · rw [runWord_of_ok hw, ht]
    rfl
  · rw [runWord_of_error hw, execIllegal, runCommand_error (s := { s with host := rest }) hf rfl]
    rfl
  · rw [runWord_of_error hw, execIllegal, runCommand_faulted (s := { s with host := rest }) _ hf]
    rfl

/-- Settles O11: the placed word is the first on the stream, and the state without it is the state it was placed in. -/
theorem placedWordRunsNext : Obligations.PlacedWordRunsNext := by
  intro nbits w s t i hw ht
  obtain ⟨hcommand, -, -⟩ := stepRunsTheDecodedCommand _ (s.withFetchWord nbits w) s.host rfl
  exact hcommand i t (decodeTableWord_eq_some hw) ht

/-- A step on the word of a command, at any port, is the command at the port that completion leaves. -/
theorem step_offered {i : Instr} {s t : State} (h : exec i s = .next t) (e : List HostEvent) (r v : Bool) :
    step (s.atPort (.command (encode i) :: e) r v) = .next (t.atPort e true true) := by
  obtain ⟨hcommand, -, -⟩ := stepRunsTheDecodedCommand (encode i) (s.atPort (.command (encode i) :: e) r v) e rfl
  exact hcommand i _ (decode_encode i) (exec_atPort h e r v)

theorem run_succ {n : Nat} {s t : State} (h : step s = .next t) :
    Host.Core.run Sys2Proof.core (n + 1) s = Host.Core.run Sys2Proof.core n t := by
  have hcore : Sys2Proof.core.step s = .next t := h
  simp only [Host.Core.run, hcore]

theorem runCommands_cons_inv {i : Instr} {is : List Instr} {s t : State} {out : List Byte}
    (h : runCommands (i :: is) s = .next (out, t)) :
    ∃ u out', exec i s = .next u ∧ runCommands is u = .next (out', t) := by
  obtain ⟨u, hu⟩ := exec_next i s
  obtain ⟨out', t', hr, -⟩ := runCommands_next is u
  rw [runCommands_cons hu hr] at h
  cases h
  exact ⟨u, out', hu, hr⟩

/-- A sequence leaves the host's stream. -/
theorem runCommands_host {is : List Instr} {s t : State} {out : List Byte} (h : runCommands is s = .next (out, t)) :
    t.host = s.host := by
  induction is generalizing s out with
  | nil =>
    cases h
    rfl
  | cons i is ih =>
    obtain ⟨u, out', hu, hr⟩ := runCommands_cons_inv h
    obtain ⟨hhost, -, -⟩ := exec_port hu
    exact (ih hr).trans hhost

/-- From completion to completion: the offered words run as the sequence of their commands. -/
theorem run_offerAll {is : List Instr} {s t : State} {out : List Byte} (h : runCommands is s = .next (out, t))
    (e : List HostEvent) :
    Host.Core.run Sys2Proof.core is.length (s.atPort (offerAll is ++ e) true true) = .next (t.atPort e true true) := by
  induction is generalizing s out with
  | nil =>
    cases h
    rfl
  | cons i is ih =>
    obtain ⟨u, out', hu, hr⟩ := runCommands_cons_inv h
    exact (run_succ (step_offered hu _ true true)).trans (ih hr)

/-- Settles O15: the first word runs from the port as it stands, the others from completion to completion. -/
theorem offeredWordsRunInOrder : Obligations.OfferedWordsRunInOrder := by
  intro is s t out hne h
  cases is with
  | nil => exact absurd rfl hne
  | cons i is =>
    have hhost := runCommands_host h
    obtain ⟨u, out', hu, hr⟩ := runCommands_cons_inv h
    have hrun := (run_succ (step_offered hu _ s.cmdReady s.rspValid)).trans (run_offerAll hr s.host)
    rwa [← hhost] at hrun ⊢

end Machine
end Sys2Proof
end

section
/-! PROOF. The handshake at signal level (`20_memory.md` R58): between the accepting edge and the completing one the
edges only count down, and the completing edge is the transaction step of the accepted word. -/

namespace Sys2Proof.Machine

/-- An edge is one edge of a longer sequence. -/
theorem edges_cons {p : Pins} {ps : List Pins} {c d : Clocked} (h : edge p c = .next d) :
    edges (p :: ps) c = edges ps d := by
  rw [edges, h]

/-- A ready block with nothing in flight takes the offered word. -/
theorem edge_accepts {p : Pins} {c : Clocked} (hin : c.inFlight = none) (hready : c.core.cmdReady = true)
    (hrst : p.rst = false) (hvalid : p.cmdValid = true) : edge p c = .next (acceptEdge p c) := by
  simp [edge, hin, hready, hrst, hvalid]

/-- With nothing offered before, the accepted word is the one on the pins. -/
theorem acceptEdge_inFlight (p : Pins) {c : Clocked} (hoffer : c.offer = .none) :
    (acceptEdge p c).inFlight = some ⟨p.cmdWord, Config.latCmd (opField p.cmdWord) c.accepted⟩ := by
  simp [acceptEdge, acceptedWord, offerKept, hoffer]

theorem acceptEdge_core (p : Pins) {c : Clocked} (hoffer : c.offer = .none) :
    (acceptEdge p c).core = c.core.atPort c.core.host false false := by
  simp [acceptEdge, acceptingCore, offerKept, hoffer, State.atPort]

/-- With more than one edge left, an edge only counts it. -/
theorem edge_waits {p : Pins} {c : Clocked} {w : CmdWord} {left : Nat} (hrst : p.rst = false)
    (hin : c.inFlight = some ⟨w, left⟩) (hleft : 1 < left) :
    edge p c = .next { c with inFlight := some ⟨w, left - 1⟩, offer := offerAfter p c.offer } := by
  simp [edge, hrst, hin, Nat.not_le.mpr hleft]

/-- The last edge completes the command. -/
theorem edge_completes {p : Pins} {c : Clocked} {w : CmdWord} {left : Nat} {t : State} (hrst : p.rst = false)
    (hin : c.inFlight = some ⟨w, left⟩) (hleft : left ≤ 1) (ht : completed (runWord w c.core) = .next t) :
    edge p c = .next { c with core := t, inFlight := none, offer := offerAfter p c.offer } := by
  simp [edge, hrst, hin, hleft, ht, completeEdge]

/-- For fewer edges than are left the core stands still. -/
theorem edges_before_completion {ps : List Pins} {c : Clocked} {w : CmdWord} {left : Nat}
    (hrst : ∀ q ∈ ps, q.rst = false) (hin : c.inFlight = some ⟨w, left⟩) (hleft : ps.length < left) :
    ∃ d, edges ps c = .next d ∧ d.core = c.core := by
  induction ps generalizing c left with
  | nil => exact ⟨c, rfl, rfl⟩
  | cons p ps ih =>
    rw [List.length_cons] at hleft
    obtain ⟨hp, hps⟩ := List.forall_mem_cons.mp hrst
    rw [edges_cons (edge_waits hp hin (by omega))]
    exact ih hps rfl (by omega)

/-- After exactly the edges that are left the command has completed, from the core as it was. -/
theorem edges_to_completion {ps : List Pins} {c : Clocked} {w : CmdWord} {left : Nat} {t : State}
    (hrst : ∀ q ∈ ps, q.rst = false) (hin : c.inFlight = some ⟨w, left⟩) (hpos : 0 < left) (hleft : ps.length = left)
    (ht : completed (runWord w c.core) = .next t) :
    ∃ d, edges ps c = .next d ∧ d.inFlight = none ∧ d.core = t := by
  induction ps generalizing c left with
  | nil => exact absurd hleft (Nat.ne_of_lt hpos)
  | cons p ps ih =>
    rw [List.length_cons] at hleft
    obtain ⟨hp, hps⟩ := List.forall_mem_cons.mp hrst
    by_cases hlast : left ≤ 1
    · have hnil : ps = [] := List.eq_nil_of_length_eq_zero (by omega)
      subst hnil
      exact ⟨_, edges_cons (edge_completes hp hin hlast ht), rfl, rfl⟩
    · rw [edges_cons (edge_waits hp hin (by omega))]
      exact ih hps rfl (by omega) (by omega) ht

/-- Completion writes both handshake outputs, so what they were before the command leaves no trace. -/
theorem completed_runWord_atPort (w : CmdWord) (s : State) (r v : Bool) :
    completed (runWord w (s.atPort s.host r v)) = completed (runWord w s) := by
  obtain ⟨t, ht⟩ := runWord_next w s
  have hself := runWord_atPort ht s.host s.cmdReady s.rspValid
  rw [atPort_self] at hself
  rw [runWord_atPort ht s.host r v, hself]
  rfl

/-- Settles O48: after the accepting edge the core is the state before at the port of a busy block, which stands until
the completing edge runs the accepted word on it. -/
theorem handshakeRefinesTheTransaction : Obligations.HandshakeRefinesTheTransaction := by
  intro p ps c hin hoffer hready hrst hvalid hps
  rw [edges_cons (edge_accepts hin hready hrst hvalid)]
  have hflight := acceptEdge_inFlight p hoffer
  have hbusy := acceptEdge_core p hoffer
  constructor
  · intro hlt
    obtain ⟨d, hd, hcore⟩ := edges_before_completion hps hflight hlt
    rw [hbusy] at hcore
    exact ⟨d, hd, by rw [hcore]; rfl, by rw [hcore]; rfl, by rw [hcore]; rfl, by rw [hcore]; rfl⟩
  · intro heq
    obtain ⟨t, ht⟩ := runWord_next p.cmdWord c.core
    have hcompleted : completed (runWord p.cmdWord (acceptEdge p c).core) = .next (markComplete t) := by
      rw [hbusy, completed_runWord_atPort, ht, completed_next]
    obtain ⟨d, hd, hnone, hcore⟩ := edges_to_completion hps hflight (Nat.succ_pos _) heq hcompleted
    refine ⟨d, hd, hnone, ?_⟩
    rw [step_of_command rfl, hcore]
    exact congrArg completed ht

end Sys2Proof.Machine
end

section
/-! PROOF. The encoding (`30_encoding.md` R80 to R86): decoding and encoding are inverse to each other, and a word that
decodes to no command only records the fault ILLEGAL. -/

namespace Sys2Proof

/-- Settles O1: each word's OP selects its row of the opcode map. -/
theorem specWordsDecodeToTheirCommands : Obligations.SpecWordsDecodeToTheirCommands :=
  ⟨rfl, rfl, rfl, rfl, rfl, rfl, rfl, rfl, rfl, rfl, rfl, rfl, rfl, rfl⟩

/-- Settles O2: decoding reads back the two fields of the word, whatever the operand (`decode_encode`). -/
theorem decodingAnEncodedCommandGivesItBack : Obligations.DecodingAnEncodedCommandGivesItBack :=
  fun i _ => decode_encode i

theorem noOperand_eq_ok {i j : Instr} {arg : Byte} (h : noOperand i arg = .ok j) : arg = 0x00#8 ∧ i = j := by
  unfold noOperand at h
  split at h
  · cases h
    exact ⟨‹_›, rfl⟩
  · cases h

theorem noOperand_of_ne {arg : Byte} (h : arg ≠ 0x00#8) (i : Instr) : noOperand i arg = .error .nonzeroArg :=
  if_neg h

/-- Fields that decode to a command are the OP and the ARG of that command: the opcode map reads every OP in one row
only, and format N reads no ARG but 0x00. -/
theorem fields_of_decodeFields {op arg : Byte} {i : Instr} (h : decodeFields op arg = .ok i) :
    op = opcode i.mnemonic ∧ arg = i.operand.getD 0x00#8 := by
  unfold decodeFields at h
  split at h
  case h_3 | h_5 | h_7 | h_9 | h_11 =>
    cases h
    exact ⟨BitVec.eq_of_toNat_eq ‹_›, rfl⟩
  case h_12 => cases h
  all_goals
    obtain ⟨harg, rfl⟩ := noOperand_eq_ok h
    exact ⟨BitVec.eq_of_toNat_eq ‹_›, harg⟩

/-- Settles O3: the word is its two fields, and they are those of the command. -/
theorem encodingADecodedWordGivesItBack : Obligations.EncodingADecodedWordGivesItBack := by
  intro w i h
  obtain ⟨hop, harg⟩ := fields_of_decodeFields h
  rw [encode, ← hop, ← harg, packWord_fields]

/-- R86, on the fields. -/
theorem decodeFields_nonzeroArg {op arg : Byte} (hop : op.toNat ∈ [0x00, 0x01, 0x03, 0x11, 0x13, 0x15])
    (harg : arg ≠ 0x00#8) : decodeFields op arg = .error .nonzeroArg := by
  simp only [List.mem_cons, List.not_mem_nil, or_false] at hop
  rcases hop with h | h | h | h | h | h <;> simp only [decodeFields, h, noOperand_of_ne harg]

/-- R85, on the fields: no row of the opcode map has a reserved OP. -/
theorem decodeFields_reserved {op : Byte} (hop : (0x05 ≤ op.toNat ∧ op.toNat ≤ 0x10) ∨ 0x17 ≤ op.toNat) (arg : Byte) :
    decodeFields op arg = .error .reservedOpcode := by
  unfold decodeFields
  split
  case h_12 => rfl
  all_goals omega

namespace Machine

/-- An offered word that decodes to no command records ILLEGAL and completes; nothing else changes (R84). -/
theorem step_of_illegal {w : CmdWord} {r : Reject} {s : State} {rest : List HostEvent} (hw : decode w = .error r)
    (hf : s.fault = false) (hhost : s.host = .command w :: rest) :
    step s = .next { s with
      host := rest, fault := true, errcode := .illegal, rsp := 0x00#8, cmdReady := true, rspValid := true } := by
  obtain ⟨-, hillegal, -⟩ := stepRunsTheDecodedCommand w s rest hhost
  exact hillegal r hw hf

/-- Settles O4: format N is read with ARG = 0x00 only. -/
theorem nonzeroArgOnFormatNFaultsIllegal : Obligations.NonzeroArgOnFormatNFaultsIllegal := by
  intro w s rest hop harg hf hhost
  have hw : decode w = .error .nonzeroArg := decodeFields_nonzeroArg hop harg
  exact ⟨hw, step_of_illegal hw hf hhost⟩

/-- Settles O5: the reserved values lie between and above the rows of the opcode map. -/
theorem reservedOpcodesFaultIllegal : Obligations.ReservedOpcodesFaultIllegal := by
  refine ⟨by decide +kernel, fun w s rest hop hf hhost => ?_⟩
  have hw : decode w = .error .reservedOpcode := decodeFields_reserved hop _
  exact ⟨hw, step_of_illegal hw hf hhost⟩

end Machine
end Sys2Proof
end

section
/-! PROOF. The assembler (`30_encoding.md` R90, R95): it assembles exactly the statements that commands are written as,
and these are the well-formed ones. -/

namespace Sys2Proof

/-- Every command is written as a well-formed statement: an operand's type is a byte. -/
theorem toStmt_wf (i : Instr) : i.toStmt.wf = true := by
  cases i with
  | nop | hInit | hFinal | mInit | mKeyEnd | mFinal => rfl
  | hAbsorb x | hRead x | mKey x | mMsg x | mRead x => exact Laws.byte_operand_wf x

theorem exists_instr_of_formatN {m : Mnemonic} (h : m.format = .n) : ∃ i : Instr, i.toStmt = ⟨m, none⟩ := by
  cases m with
  | nop => exact ⟨.nop, rfl⟩
  | hInit => exact ⟨.hInit, rfl⟩
  | hFinal => exact ⟨.hFinal, rfl⟩
  | mInit => exact ⟨.mInit, rfl⟩
  | mKeyEnd => exact ⟨.mKeyEnd, rfl⟩
  | mFinal => exact ⟨.mFinal, rfl⟩
  | hAbsorb | hRead | mKey | mMsg | mRead => cases h

theorem exists_instr_of_byte {m : Mnemonic} (h : m.format ≠ .n) (x : Byte) :
    ∃ i : Instr, i.toStmt = ⟨m, some x.toNat⟩ := by
  cases m with
  | hAbsorb => exact ⟨.hAbsorb x, rfl⟩
  | hRead => exact ⟨.hRead x, rfl⟩
  | mKey => exact ⟨.mKey x, rfl⟩
  | mMsg => exact ⟨.mMsg x, rfl⟩
  | mRead => exact ⟨.mRead x, rfl⟩
  | nop | hInit | hFinal | mInit | mKeyEnd | mFinal => exact absurd rfl h

/-- The operand of a well-formed statement (R90): none on format N, a byte on formats B and I. -/
theorem operand_of_wf {m : Mnemonic} {o : Option Nat} (h : Stmt.wf ⟨m, o⟩ = true) :
    (m.format = .n ∧ o = none) ∨ (m.format ≠ .n ∧ ∃ x : Byte, o = some x.toNat) := by
  cases o with
  | none =>
    cases hm : m.format with
    | n => exact .inl ⟨rfl, rfl⟩
    | b | i => simp [Stmt.wf, hm] at h
  | some v =>
    cases hm : m.format with
    | n => simp [Stmt.wf, hm] at h
    | b | i =>
      have hv : v < 256 := by simpa [Stmt.wf, hm] using h
      exact .inr ⟨nofun, BitVec.ofNat 8 v, by rw [BitVec.toNat_ofNat, Nat.mod_eq_of_lt hv]⟩

/-- Every well-formed statement is the one some command is written as. -/
theorem exists_instr_of_wf {st : Stmt} (h : st.wf = true) : ∃ i : Instr, i.toStmt = st := by
  obtain ⟨m, o⟩ := st
  obtain ⟨hm, rfl⟩ | ⟨hm, x, rfl⟩ := operand_of_wf h
  · exact exists_instr_of_formatN hm
  · exact exists_instr_of_byte hm x

/-- A command's own statement assembles to it. -/
theorem assembleStmt_toStmt (i : Instr) : assembleStmt i.toStmt = some i := by
  cases i with
  | nop | hInit | hFinal | mInit | mKeyEnd | mFinal => rfl
  | hAbsorb x | hRead x | mKey x | mMsg x | mRead x =>
    simp [assembleStmt, Instr.toStmt, Instr.mnemonic, Instr.operand, x.isLt]

/-- Only the statement a command is written as assembles to it. -/
theorem toStmt_of_assembleStmt {st : Stmt} {i : Instr} (h : assembleStmt st = some i) : i.toStmt = st := by
  obtain ⟨m, o⟩ := st
  cases o with
  | none => cases m <;> cases h <;> rfl
  | some v =>
    cases m with
    | nop | hInit | hFinal | mInit | mKeyEnd | mFinal => cases h
    | hAbsorb | hRead | mKey | mMsg | mRead =>
      obtain ⟨hv, hi⟩ := Option.ite_none_right_eq_some.mp h
      cases hi
      simp [Instr.toStmt, Instr.mnemonic, Instr.operand, Nat.mod_eq_of_lt hv]

theorem packWord_toNat (op arg : Byte) : (packWord op arg).toNat = op.toNat * 256 ||| arg.toNat := by
  have hop := op.isLt
  have harg := arg.isLt
  rw [packWord, BitVec.toNat_or, BitVec.toNat_shiftLeft, BitVec.toNat_setWidth, BitVec.toNat_setWidth,
    Nat.shiftLeft_eq, Nat.mod_eq_of_lt (by omega), Nat.mod_eq_of_lt (by omega), Nat.mod_eq_of_lt (by omega)]

/-- The word of a command, from the statement it is written as: (OP << 8) OR operand (R90). -/
theorem encode_toNat (i : Instr) :
    (encode i).toNat = (opcode i.toStmt.mnemonic).toNat * 256 ||| i.toStmt.operand.getD 0 := by
  rw [encode, packWord_toNat, Instr.toStmt]
  cases i.operand <;> rfl

/-- Settles O6: a well-formed statement is some command's own, and what assembles at all is a command's own. -/
theorem assemblyFollowsTheStatement : Obligations.AssemblyFollowsTheStatement := by
  intro st
  constructor
  · intro hwf
    obtain ⟨i, rfl⟩ := exists_instr_of_wf hwf
    exact ⟨i, assembleStmt_toStmt i, rfl, encode_toNat i⟩
  · intro hwf
    cases h : assembleStmt st with
    | none => rfl
    | some i =>
      have hi := toStmt_wf i
      rw [toStmt_of_assembleStmt h, hwf] at hi
      cases hi

namespace Machine

theorem length_expand_hAbsorbs (m : List Byte) : (expand (.hAbsorbs m)).length = m.length := List.length_map _

theorem length_expand_hReadAll : (expand .hReadAll).length = 20 := rfl

theorem expand_hash (m : List Byte) :
    expand (.hash m) = [.hInit] ++ expand (.hAbsorbs m) ++ [.hFinal] ++ expand .hReadAll := rfl

/-- Settles O7: the count is the sum over the four parts of the expansion. -/
theorem hashExpandsToItsCommands : Obligations.HashExpandsToItsCommands := by
  intro m
  refine ⟨expand_hash m, ?_⟩
  calc (expand (.hash m)).length
    _ = 1 + m.length + 1 + 20 := by
      rw [expand_hash, List.length_append, List.length_append, List.length_append, length_expand_hAbsorbs,
        length_expand_hReadAll]
      rfl
    _ = 2 + m.length + 20 := by omega

end Machine
end Sys2Proof
end

section
/-! PROOF. The mixing functions (`40_compression.md` R101): which of select, parity and majority each range of rounds
uses, and the bits of each. -/

namespace Sys2Proof.Machine

theorem mix_select {t : Nat} (ht : t < 20) (b c d : Word) : mix t b c d = (b &&& c) ||| (~~~b &&& d) :=
  if_pos ht

theorem mix_parity {t : Nat} (ht : (20 ≤ t ∧ t < 40) ∨ 60 ≤ t) (b c d : Word) : mix t b c d = b ^^^ c ^^^ d := by
  rw [mix, if_neg (by omega)]
  rcases ht with ⟨-, hlt⟩ | hge
  · rw [if_pos hlt]
  · rw [if_neg (by omega), if_neg (by omega)]

theorem mix_majority {t : Nat} (hle : 40 ≤ t) (hlt : t < 60) (b c d : Word) :
    mix t b c d = (b &&& c) ||| (b &&& d) ||| (c &&& d) := by
  rw [mix, if_neg (by omega), if_neg (by omega), if_pos hlt]

theorem getLsbD_select (b c d : Word) {i : Nat} (hi : i < 32) :
    ((b &&& c) ||| (~~~b &&& d)).getLsbD i = if b.getLsbD i then c.getLsbD i else d.getLsbD i := by
  rw [BitVec.getLsbD_or, BitVec.getLsbD_and, BitVec.getLsbD_and, BitVec.getLsbD_not, decide_eq_true hi]
  cases b.getLsbD i <;> simp

theorem getLsbD_majority (b c d : Word) (i : Nat) :
    ((b &&& c) ||| (b &&& d) ||| (c &&& d)).getLsbD i
      = decide (2 ≤ (b.getLsbD i).toNat + (c.getLsbD i).toNat + (d.getLsbD i).toNat) := by
  rw [BitVec.getLsbD_or, BitVec.getLsbD_or, BitVec.getLsbD_and, BitVec.getLsbD_and, BitVec.getLsbD_and]
  cases b.getLsbD i <;> cases c.getLsbD i <;> cases d.getLsbD i <;> rfl

/-- The two products of a select are never both 1, so OR and XOR agree. -/
theorem select_eq_xor (b c d : Word) : (b &&& c) ||| (~~~b &&& d) = (b &&& c) ^^^ (~~~b &&& d) := by
  have hbit : ∀ x y z : Bool, (x && y || !x && z) = ((x && y) ^^ (!x && z)) := by decide
  ext i hi
  simp only [BitVec.getElem_or, BitVec.getElem_xor, BitVec.getElem_and, BitVec.getElem_not, hbit]

/-- Of the three products of a majority one or all three are 1, or none is: their OR is their parity. -/
theorem majority_eq_xor (b c d : Word) :
    (b &&& c) ||| (b &&& d) ||| (c &&& d) = (b &&& c) ^^^ (b &&& d) ^^^ (c &&& d) := by
  have hbit : ∀ x y z : Bool, (x && y || x && z || y && z) = ((x && y) ^^ (x && z) ^^ (y && z)) := by decide
  ext i hi
  simp only [BitVec.getElem_or, BitVec.getElem_xor, BitVec.getElem_and, hbit]

/-- Settles O39: in each range of rounds, the bits of the function of that range. -/
theorem mixingFunctionsActBitByBit : Obligations.MixingFunctionsActBitByBit := by
  intro t i b c d _ hi
  refine ⟨fun ht => ?_, fun ht => ?_, fun hle hlt => ?_⟩
  · rw [mix_select ht]
    exact ⟨getLsbD_select b c d hi, select_eq_xor b c d⟩
  · rw [mix_parity ht, BitVec.getLsbD_xor, BitVec.getLsbD_xor]
  · rw [mix_majority hle hlt]
    exact ⟨getLsbD_majority b c d i, majority_eq_xor b c d⟩

end Sys2Proof.Machine
end

section
/-! PROOF. The message schedule (`40_compression.md` R102): each step of its loop writes one word from earlier words, so
a word reads as it did when the loop passed it. -/

namespace Sys2Proof.Machine

/-- The four bytes do not overlap, so their OR puts them one after another (R11). -/
theorem be32_eq_append (b0 b1 b2 b3 : Byte) : be32 b0 b1 b2 b3 = b0 ++ b1 ++ b2 ++ b3 := by
  ext i hi
  simp only [be32, BitVec.getElem_or, BitVec.getElem_shiftLeft, BitVec.getElem_setWidth]
  grind

theorem be32_toNat (b0 b1 b2 b3 : Byte) :
    (be32 b0 b1 b2 b3).toNat = b0.toNat * 2 ^ 24 + b1.toNat * 2 ^ 16 + b2.toNat * 2 ^ 8 + b3.toNat := by
  rw [be32_eq_append, toNat_append_eq_add, toNat_append_eq_add, toNat_append_eq_add]
  omega

theorem blockWord_toNat (block : Vector Byte 64) {t : Nat} (h : t < 16) :
    (blockWord block t).toNat = block[4 * t].toNat * 2 ^ 24 + block[4 * t + 1].toNat * 2 ^ 16
      + block[4 * t + 2].toNat * 2 ^ 8 + block[4 * t + 3].toNat := by
  rw [blockWord, be32_toNat, peek_of_lt _ (by omega), peek_of_lt _ (by omega), peek_of_lt _ (by omega),
    peek_of_lt _ (by omega)]

theorem peek_scheduleStep_self (w : Vector Word 80) {t : Nat} (ht : t < 80) :
    peek (scheduleStep w t) t
      = rotl (peek w (t - 3) ^^^ peek w (t - 8) ^^^ peek w (t - 14) ^^^ peek w (t - 16)) 1 :=
  peek_poke_same w ht _

theorem peek_scheduleStep_ne (w : Vector Word 80) {t j : Nat} (h : t ≠ j) : peek (scheduleStep w t) j = peek w j :=
  peek_poke_ne w h _

/-- The loop from `lo` on leaves the words below `lo` alone. -/
theorem peek_foldl_scheduleStep {j : Nat} (count lo : Nat) (w : Vector Word 80) (h : j < lo) :
    peek ((List.range' lo count).foldl scheduleStep w) j = peek w j := by
  induction count generalizing lo w with
  | zero => rfl
  | succ count ih =>
    rw [List.range'_succ, List.foldl_cons, ih (lo + 1) _ (by omega), peek_scheduleStep_ne w (by omega)]

/-- The schedule when its loop has reached word t: the words of the block, and the recurrence below t. -/
def scheduleBefore (block : Vector Byte 64) (t : Nat) : Vector Word 80 :=
  (List.range' 16 (t - 16)).foldl scheduleStep
    (Vector.ofFn fun t => if t.val < 16 then blockWord block t.val else 0#32)

/-- The loop passes word t, and then goes on behind it. -/
theorem schedule_eq_foldl_scheduleBefore (block : Vector Byte 64) {t : Nat} (h16 : 16 ≤ t) (h80 : t < 80) :
    schedule block
      = (List.range' (t + 1) (79 - t)).foldl scheduleStep (scheduleStep (scheduleBefore block t) t) := by
  have hsplit : List.range' 16 64 = List.range' 16 (t - 16) ++ t :: List.range' (t + 1) (79 - t) := by
    obtain ⟨k, rfl⟩ := Nat.exists_eq_add_of_le h16
    have hlen : 16 + k - 16 + (79 - (16 + k) + 1) = 64 := by omega
    rw [← hlen, ← List.range'_append_1, Nat.add_sub_cancel_left, List.range'_succ]
  rw [schedule, hsplit, List.foldl_append, List.foldl_cons, scheduleBefore]

theorem peek_schedule_before (block : Vector Byte 64) {t j : Nat} (h16 : 16 ≤ t) (h80 : t < 80) (hj : j < t) :
    peek (schedule block) j = peek (scheduleBefore block t) j := by
  rw [schedule_eq_foldl_scheduleBefore block h16 h80, peek_foldl_scheduleStep _ _ _ (by omega),
    peek_scheduleStep_ne _ (by omega)]

theorem peek_schedule_block (block : Vector Byte 64) {t : Nat} (h : t < 16) :
    peek (schedule block) t = blockWord block t := by
  rw [schedule, peek_foldl_scheduleStep _ _ _ h, peek_ofFn _ (by omega), if_pos h]

theorem peek_schedule_recurrence (block : Vector Byte 64) {t : Nat} (h16 : 16 ≤ t) (h80 : t < 80) :
    peek (schedule block) t
      = rotl (peek (schedule block) (t - 3) ^^^ peek (schedule block) (t - 8) ^^^ peek (schedule block) (t - 14)
          ^^^ peek (schedule block) (t - 16)) 1 := by
  have earlier : ∀ k, 0 < k → peek (schedule block) (t - k) = peek (scheduleBefore block t) (t - k) :=
    fun k hk => peek_schedule_before block h16 h80 (by omega)
  rw [earlier 3 (by decide), earlier 8 (by decide), earlier 14 (by decide), earlier 16 (by decide),
    schedule_eq_foldl_scheduleBefore block h16 h80, peek_foldl_scheduleStep _ _ _ (by omega),
    peek_scheduleStep_self _ h80]

/-- Settles O40: the block's words, as numbers, and the recurrence on the finished schedule. -/
theorem scheduleFollowsTheRecurrence : Obligations.ScheduleFollowsTheRecurrence := by
  intro block t
  refine ⟨fun h => ?_, peek_schedule_recurrence block⟩
  rw [peek_schedule_block block h, blockWord_toNat block h]

end Sys2Proof.Machine
end

section
/-! PROOF. The rounds (`40_compression.md` R103 to R107): the working variables before each round, which the transform of
the definition, the datapath registers and the 16-word window all pass through. -/

namespace Sys2Proof.Machine

/-- Settles O41: each word addition is one modulo 2^32, and the five-term sum is reduced once. -/
theorem roundsAndUpdateAddModulo32Bits : Obligations.RoundsAndUpdateAddModulo32Bits := by
  intro t v wt h _
  have hsum : (roundStep t v wt).a.toNat
      = ((rotl v.a 5).toNat + (mix t v.b v.c v.d).toNat + v.e.toNat + (roundConstant t).toNat + wt.toNat) % 2 ^ 32 := by
    simp only [roundStep, BitVec.toNat_add, Nat.mod_add_mod]
  exact ⟨hsum, rfl, rfl, rfl, rfl, rfl, rfl, rfl, rfl, rfl⟩

/-- The working variables before round n of a compression, of a block whose schedule is W[0..79] (R103, R104). -/
def varsBefore (h : Vector Word 5) (block : Vector Byte 64) (n : Nat) : WorkVars :=
  (List.range n).foldl (fun v t => roundStep t v (peek (schedule block) t)) (loadVars h)

theorem compress_eq_varsBefore (h : Vector Word 5) (block : Vector Byte 64) :
    compress h block = stateUpdate h (varsBefore h block 80) := rfl

theorem varsBefore_succ (h : Vector Word 5) (block : Vector Byte 64) (n : Nat) :
    varsBefore h block (n + 1) = roundStep n (varsBefore h block n) (peek (schedule block) n) := by
  rw [varsBefore, List.range_succ, List.foldl_append]
  rfl

theorem datapathRound_wv (dp : Datapath) {t : Nat} (ht : t < 80) :
    (datapathRound dp t).wv = roundStep t dp.wv (peek dp.w t) := by
  have hT : (BitVec.ofNat 7 t).toNat = t := by rw [BitVec.toNat_ofNat, Nat.mod_eq_of_lt (by omega)]
  rw [datapathRound, hT]

/-- The registers before round n hold the schedule in W, and in A..E the working variables of the definition. -/
theorem datapath_before_round (h : Vector Word 5) (block : Vector Byte 64) {n : Nat} (hn : n ≤ 80) :
    ((List.range n).foldl datapathRound (loadDatapath h block)).w = schedule block ∧
    ((List.range n).foldl datapathRound (loadDatapath h block)).wv = varsBefore h block n := by
  induction n with
  | zero => exact ⟨rfl, rfl⟩
  | succ n ih =>
    obtain ⟨hw, hv⟩ := ih (by omega)
    rw [List.range_succ, List.foldl_append, List.foldl_cons, List.foldl_nil]
    exact ⟨hw, by rw [datapathRound_wv _ (by omega), hw, hv, varsBefore_succ]⟩

/-- Settles O42: after round 79 the registers A..E hold the working variables of the definition. -/
theorem registersComputeTheTransform : Obligations.RegistersComputeTheTransform := by
  intro s
  rw [compressBuffer_h, compress_eq_varsBefore, runRounds, (datapath_before_round s.h s.buf (Nat.le_refl 80)).2]

/-- Every schedule word below n that is less than 16 words old stands in the window, at its number modulo 16. -/
def WindowHolds (block : Vector Byte 64) (n : Nat) (m : Window) : Prop :=
  ∀ j, j < n → n ≤ j + 16 → peek m (j % 16) = peek (schedule block) j

/-- The window at the start holds the first 16 words (R107). -/
theorem loadWindow_holds (block : Vector Byte 64) : WindowHolds block 16 (loadWindow block) := by
  intro j hj _
  rw [Nat.mod_eq_of_lt hj, loadWindow, peek_ofFn _ hj, peek_schedule_block block hj]

/-- Word t overwrites word t − 16, which no later round reads. -/
theorem windowStep_holds {block : Vector Byte 64} {t : Nat} {m : Window} (h16 : 16 ≤ t) (h80 : t < 80)
    (h : WindowHolds block t m) : WindowHolds block (t + 1) (windowStep m t) := by
  have oldest : peek m (t % 16) = peek (schedule block) (t - 16) := by
    rw [← h (t - 16) (by omega) (by omega)]
    congr 1
    omega
  have hword : rotl (peek m ((t - 3) % 16) ^^^ peek m ((t - 8) % 16) ^^^ peek m ((t - 14) % 16) ^^^ peek m (t % 16)) 1
      = peek (schedule block) t := by
    rw [peek_schedule_recurrence block h16 h80, h (t - 3) (by omega) (by omega), h (t - 8) (by omega) (by omega),
      h (t - 14) (by omega) (by omega), oldest]
  intro j hj hage
  rw [windowStep, if_neg (by omega), hword]
  rcases Nat.lt_succ_iff_lt_or_eq.mp hj with hlt | rfl
  · rw [peek_poke_ne _ (by omega), h j hlt (by omega)]
  · rw [peek_poke_same _ (Nat.mod_lt _ (by decide))]

/-- Round n finds W[n] in the window, and leaves the window ready for the next round (R107). -/
theorem windowStep_gives_schedule_word {block : Vector Byte 64} {n : Nat} {m : Window} (hn : n < 80)
    (h : WindowHolds block (max n 16) m) :
    WindowHolds block (max (n + 1) 16) (windowStep m n) ∧
    peek (windowStep m n) (n % 16) = peek (schedule block) n := by
  rcases Nat.lt_or_ge n 16 with hlt | hge
  · have hsame : windowStep m n = m := if_pos hlt
    rw [Nat.max_eq_right (by omega)] at h ⊢
    rw [hsame]
    exact ⟨h, h n hlt (by omega)⟩
  · rw [Nat.max_eq_left hge] at h
    rw [Nat.max_eq_left (by omega)]
    have hnext := windowStep_holds hge hn h
    exact ⟨hnext, hnext n (by omega) (by omega)⟩

/-- Before round n the window holds the last 16 words, and the working variables are those of the definition. -/
theorem window_before_round (h : Vector Word 5) (block : Vector Byte 64) {n : Nat} (hn : n ≤ 80) :
    WindowHolds block (max n 16) ((List.range n).foldl windowRound (loadWindow block, loadVars h)).1 ∧
    ((List.range n).foldl windowRound (loadWindow block, loadVars h)).2 = varsBefore h block n := by
  induction n with
  | zero => exact ⟨loadWindow_holds block, rfl⟩
  | succ n ih =>
    obtain ⟨hwindow, hvars⟩ := ih (by omega)
    obtain ⟨hnext, hword⟩ := windowStep_gives_schedule_word (by omega) hwindow
    rw [List.range_succ, List.foldl_append, List.foldl_cons, List.foldl_nil]
    exact ⟨hnext, by rw [windowRound, hword, hvars, varsBefore_succ]⟩

/-- Settles O43: every round of the windowed datapath uses the definition's W[t], so its variables are the same. -/
theorem windowedScheduleGivesTheSameTransform : Obligations.WindowedScheduleGivesTheSameTransform := by
  intro h block
  rw [compressWindowed, (window_before_round h block (Nat.le_refl 80)).2, compress_eq_varsBefore]

end Sys2Proof.Machine
end

section
/-! PROOF. What each hash command does, and its frame (`41_hash_commands.md` R131 to R138): the meaning of its body on
the states where it takes effect, and what it leaves in all others. -/

namespace Sys2Proof.Machine

/-- Settles O17: ignored or run, NOP answers the same. -/
theorem nopOnlyClearsTheResponse : Obligations.NopOnlyClearsTheResponse := by
  intro s
  by_cases hf : s.fault = true
  · exact runCommand_faulted nopBody hf
  · exact runCommand_ok (body := nopBody) (Bool.eq_false_of_not_eq_true hf) rfl

/-- Settles O18: H.INIT has no guard, and its body is the stated update. -/
theorem hInitOpensAFreshHashSession : Obligations.HInitOpensAFreshHashSession :=
  fun _ hf => runCommand_ok (body := hInitBody) hf rfl

/-! ### Absorbing a byte (R131) -/

/-- Where a command absorbs its byte, its body is E_ABSORB (R136, R154, R156). -/
theorem bodyOf_absorbs {i : Instr} {x : Byte} {s : State} (h : Absorbs i x s) :
    bodyOf i s = (eAbsorb x s).map (respond 0x00#8) := by
  obtain ⟨rfl, hsession, hphase⟩ | ⟨rfl, hsession, hphase⟩ | ⟨rfl, hsession, hphase, hlong⟩ := h
  · simp [bodyOf, hAbsorbBody, hsession, hphase]
  · simp [bodyOf, mMsgBody, hsession, hphase]
  · simp [bodyOf, mKeyBody, hsession, hphase, hlong]

theorem exec_absorbs {i : Instr} {x : Byte} {s t : State} (hf : s.fault = false) (ha : Absorbs i x s)
    (h : eAbsorb x s = .ok t) : exec i s = .next (respond 0x00#8 t) := by
  rw [exec_eq_runCommand]
  exact runCommand_ok hf (by rw [bodyOf_absorbs ha, h]; rfl)

/-- A compression whole: H as the transform of the definition, and the next free value in the datapath. -/
theorem compressBuffer_eq (s : State) :
    compressBuffer s = { s with h := compress s.h s.buf, dp := freeDatapath s.draws, draws := s.draws + 1 } := by
  rw [← registersComputeTheTransform s]
  rfl

/-- E_ABSORB on the last byte of a block. -/
theorem eAbsorb_completes_compress {x : Byte} {s : State} (h63 : s.cnt.toNat = 63) (hb : s.bitlen ≠ lastBlockBits) :
    eAbsorb x s = .ok { s with
      buf := poke s.buf 63 x, h := compress s.h (poke s.buf 63 x), bitlen := s.bitlen + 512#64, cnt := 0#6
      dp := freeDatapath s.draws, draws := s.draws + 1 } := by
  rw [eAbsorb_completes h63 hb, compressBuffer_eq, h63]

theorem eq_lastBlockBits_iff (b : BitVec 64) : b = lastBlockBits ↔ b.toNat = 2 ^ 64 - 512 :=
  BitVec.toNat_inj.symm

/-- Settles O19: the three cases of E_ABSORB. -/
theorem absorbedByteIsBufferedOrCompletesABlock : Obligations.AbsorbedByteIsBufferedOrCompletesABlock := by
  intro i x s hf ha
  refine ⟨fun hlt => ?buffered, fun h63 hb => ⟨freeDatapath s.draws, s.draws + 1, ?completes⟩, fun h63 hb => ?faults⟩
  case buffered => exact exec_absorbs hf ha (eAbsorb_buffers hlt)
  case completes =>
    have hroom : s.bitlen ≠ lastBlockBits := mt (eq_lastBlockBits_iff s.bitlen).mp hb
    exact exec_absorbs hf ha (eAbsorb_completes_compress h63 hroom)
  case faults =>
    have herror : eAbsorb x s = .error .length :=
      (eAbsorb_error_iff x s .length).mpr ⟨rfl, h63, (eq_lastBlockBits_iff _).mpr hb⟩
    rw [exec_eq_runCommand]
    exact runCommand_error hf (by rw [bodyOf_absorbs ha, herror]; rfl)

/-! ### Finalisation (R132) -/

theorem exec_hFinal {s : State} (hf : s.fault = false) (hsession : s.session = .hash) (hphase : s.ephase = .absorb) :
    exec .hFinal s = .next (respond 0x00#8 (eFinal s)) :=
  runCommand_ok hf (by simp [hFinalBody, hsession, hphase])

/-- E_FINAL whole: the final blocks compressed in order, one free value drawn for each. -/
theorem eFinal_eq (s : State) :
    ∃ dp, eFinal s = { s with
      h := finalH s, buf := (finalBlocks s).getLastD zeroBytes
      bitlen := BitVec.ofNat 64 (s.bitlen.toNat + 8 * s.cnt.toNat), cnt := 0#6, ephase := .done
      dp := dp, draws := s.draws + if s.cnt.toNat ≤ 55 then 1 else 2 } := by
  rw [← messageBits_eq, finalH, finalBlocks]
  by_cases h : s.cnt.toNat ≤ 55
  · exact ⟨freeDatapath s.draws, by simp [eFinal_one h, h, compressBuffer_eq]⟩
  · exact ⟨freeDatapath (s.draws + 1), by simp [eFinal_two h, h, compressBuffer_eq]⟩

theorem eFinal_h (s : State) : (eFinal s).h = finalH s := by
  obtain ⟨dp, h⟩ := eFinal_eq s
  rw [h]

theorem eFinal_draws (s : State) : (eFinal s).draws = s.draws + if s.cnt.toNat ≤ 55 then 1 else 2 := by
  obtain ⟨dp, h⟩ := eFinal_eq s
  rw [h]

/-- Settles O20: H.FINAL is E_FINAL. -/
theorem hFinalCompressesTheFinalBlocks : Obligations.HFinalCompressesTheFinalBlocks := by
  intro s hf hsession hphase
  obtain ⟨dp, h⟩ := eFinal_eq s
  exact ⟨dp, _, by rw [exec_hFinal hf hsession hphase, h, respond]⟩

/-! ### Reading the digest (R133) -/

theorem digestByte_eq (h : Vector Word 5) {k j : Nat} (hk : k < 5) (hj : j < 4) :
    digestByte h (4 * k + j) = BitVec.ofNat 8 (h[k].toNat / 2 ^ (24 - 8 * j)) := by
  have hword : (4 * k + j) / 4 = k := by omega
  have hbyte : (4 * k + j) % 4 = j := by omega
  apply BitVec.eq_of_toNat_eq
  rw [digestByte, byteOfWord, hword, hbyte, peek_of_lt h hk, BitVec.extractLsb'_toNat, Nat.shiftRight_eq_div_pow,
    BitVec.toNat_ofNat]

/-- A READ that shows a digest byte: H.READ of a finalised hash session, or M.READ of a finished HMAC session. -/
def ReadsDigest (read : Byte → Instr) (s : State) : Prop :=
  (read = .hRead ∧ s.session = .hash ∧ s.ephase = .done) ∨ (read = .mRead ∧ s.session = .hmac ∧ s.mphase = .done)

theorem exec_readsDigest {read : Byte → Instr} {s : State} {n : Nat} (hf : s.fault = false) (hr : ReadsDigest read s)
    (hn : n < 20) : exec (read (BitVec.ofNat 8 n)) s = .next (respond (digestByte s.h n) s) := by
  have hindex : (BitVec.ofNat 8 n).toNat = n := by
    rw [BitVec.toNat_ofNat]
    omega
  rw [exec_eq_runCommand]
  refine runCommand_ok hf ?_
  obtain ⟨rfl, hsession, hphase⟩ | ⟨rfl, hsession, hphase⟩ := hr
  · simp [bodyOf, hReadBody, indexInRange, hsession, hphase, hindex, hn]
  · simp [bodyOf, mReadBody, indexInRange, hsession, hphase, hindex, hn]

/-- Settles O21: both READs show the digest byte, which is cut from its word. -/
theorem readsShowTheDigestByte : Obligations.ReadsShowTheDigestByte := by
  intro s k j hk hf hj
  rw [← digestByte_eq s.h hk hj]
  exact ⟨fun hsession hphase => exec_readsDigest hf (.inl ⟨rfl, hsession, hphase⟩) (by omega),
    fun hsession hphase => exec_readsDigest hf (.inr ⟨rfl, hsession, hphase⟩) (by omega)⟩

/-! ### Frames -/

/-- NOP, H.ABSORB, H.FINAL and H.READ are a micro-operation of the engine, or none, and a response. -/
theorem hashBody_ok {i : Instr} {x : Byte} {s t : State} (hi : i ∈ [.nop, .hAbsorb x, .hFinal, .hRead x])
    (h : bodyOf i s = .ok t) : ∃ v u, EngineFrame s u ∧ t = respond v u := by
  simp only [List.mem_cons, List.not_mem_nil, or_false] at hi
  obtain rfl | rfl | rfl | rfl := hi
  · cases h
    exact ⟨_, s, .refl s, rfl⟩
  · obtain ⟨-, -, u, hu, rfl⟩ := hAbsorbBody_ok h
    exact ⟨_, u, eAbsorb_frame hu, rfl⟩
  · obtain ⟨-, -, rfl⟩ := hFinalBody_ok h
    exact ⟨_, eFinal s, eFinal_frame s, rfl⟩
  · obtain ⟨-, -, -, rfl⟩ := hReadBody_ok h
    exact ⟨_, s, .refl s, rfl⟩

/-- Settles O29: an ignored or faulting command writes no register of either part, and one that takes effect has the
engine's frame and leaves FAULT at 0. -/
theorem hashCommandsLeaveTheController : Obligations.HashCommandsLeaveTheController := by
  intro i x s t hi h
  rw [exec_eq_runCommand] at h
  obtain ⟨-, hr⟩ | ⟨hf, u, hu, hr⟩ | ⟨-, c, -, hr⟩ := runCommand_cases (bodyOf i) s
  · cases hr.symm.trans h
    exact ⟨rfl, rfl, rfl, rfl, rfl, rfl, fun _ => ⟨rfl, rfl, rfl, rfl, rfl, rfl⟩⟩
  · cases hr.symm.trans h
    obtain ⟨v, w, f, rfl⟩ := hashBody_ok hi hu
    refine ⟨f.mphase, f.kbuf, f.klen, f.longkey, f.idig, f.session, fun hfault => ?_⟩
    rw [respond_fault, f.fault, hf] at hfault
    cases hfault
  · cases hr.symm.trans h
    exact ⟨rfl, rfl, rfl, rfl, rfl, rfl, fun _ => ⟨rfl, rfl, rfl, rfl, rfl, rfl⟩⟩

/-- NOP and the READs are a response and nothing else. -/
theorem readBody_ok {i : Instr} {k : Byte} {s t : State} (hi : i ∈ [.nop, .hRead k, .mRead k])
    (h : bodyOf i s = .ok t) : ∃ v, t = respond v s := by
  simp only [List.mem_cons, List.not_mem_nil, or_false] at hi
  obtain rfl | rfl | rfl := hi
  · cases h
    exact ⟨_, rfl⟩
  · obtain ⟨-, -, -, rfl⟩ := hReadBody_ok h
    exact ⟨_, rfl⟩
  · obtain ⟨-, -, -, rfl⟩ := mReadBody_ok h
    exact ⟨_, rfl⟩

/-- Settles O30: ignored, effective or faulting, such a command writes only the response and the fault's registers. -/
theorem readsLeaveEverythingButTheResponse : Obligations.ReadsLeaveEverythingButTheResponse := by
  intro i k s t hi h
  rw [exec_eq_runCommand] at h
  obtain ⟨-, hr⟩ | ⟨-, u, hu, hr⟩ | ⟨-, c, -, hr⟩ := runCommand_cases (bodyOf i) s
  · cases hr.symm.trans h
    exact ⟨rfl, fun _ => rfl⟩
  · cases hr.symm.trans h
    obtain ⟨v, rfl⟩ := readBody_ok hi hu
    exact ⟨rfl, fun _ => rfl⟩
  · cases hr.symm.trans h
    exact ⟨rfl, fun hfault => by cases hfault⟩

end Sys2Proof.Machine
end

section
/-! PROOF. The engine on a message (`41_hash_commands.md` R131, R132, R139, R140): absorbed byte by byte it holds the
whole blocks compressed and the rest in BUF, so that finalisation compresses the rest of the padded message. -/

namespace Sys2Proof.Machine

/-! ### Blocks of a byte sequence -/

theorem blockOf_append {l r : List Byte} (h : 64 ≤ l.length) : blockOf (l ++ r) = blockOf l := by
  apply ext_peek
  intro j hj
  rw [peek_blockOf _ hj, peek_blockOf _ hj, getD_append_zero, if_pos (by omega)]

theorem compressBlocks_append {n : Nat} (h : Vector Word 5) {l r : List Byte} (hl : 64 * n ≤ l.length) :
    compressBlocks n h (l ++ r) = compressBlocks n h l := by
  induction n generalizing h l with
  | zero => rfl
  | succ n ih =>
    rw [compressBlocks, compressBlocks, blockOf_append (by omega), List.drop_append_of_le_length (by omega),
      ih _ (by rw [List.length_drop]; omega)]

/-- The blocks of a sequence are the first n, and then the others. -/
theorem compressBlocks_add (n k : Nat) (h : Vector Word 5) (l : List Byte) :
    compressBlocks (n + k) h l = compressBlocks k (compressBlocks n h l) (l.drop (64 * n)) := by
  induction n generalizing h l with
  | zero => simp [compressBlocks]
  | succ n ih =>
    rw [Nat.succ_add, compressBlocks, compressBlocks, ih, List.drop_drop]
    congr 2
    omega

theorem compressBlocks_one (h : Vector Word 5) (l : List Byte) : compressBlocks 1 h l = compress h (blockOf l) := rfl

theorem compressBlocks_two (h : Vector Word 5) {l r : List Byte} (hl : l.length = 64) :
    compressBlocks 2 h (l ++ r) = compress (compress h (blockOf l)) (blockOf r) := by
  rw [compressBlocks, compressBlocks_one, blockOf_append (by omega), List.drop_left' hl]

/-! ### Absorbing a message -/

/-- What the engine holds of a message absorbed since E_INIT: its whole blocks are compressed and counted, and the bytes
after them are in BUF. -/
structure HasAbsorbed (m : List Byte) (s : State) : Prop where
  h : s.h = compressBlocks (m.length / 64) initialH m
  rest : liveBytes s = m.drop (64 * (m.length / 64))
  bitlen : s.bitlen = BitVec.ofNat 64 (512 * (m.length / 64))

theorem eInit_hasAbsorbed (s : State) : HasAbsorbed [] (eInit s) := ⟨rfl, rfl, rfl⟩

theorem HasAbsorbed.cnt {m : List Byte} {s : State} (hs : HasAbsorbed m s) : s.cnt.toNat = m.length % 64 := by
  have hlen := congrArg List.length hs.rest
  rw [liveBytes_length, List.length_drop] at hlen
  omega

/-- The live bytes and one more, as BUF holds them. -/
theorem take_poke_cnt (x : Byte) (s : State) :
    (poke s.buf s.cnt.toNat x).toList.take (s.cnt.toNat + 1) = liveBytes s ++ [x] := by
  have hlt : s.cnt.toNat < 64 := s.cnt.isLt
  rw [poke, dif_pos hlt, Vector.toList_set, liveBytes, List.take_succ_eq_append_getElem (by simpa using hlt)]
  simp [List.take_set, List.set_eq_of_length_le]

/-- An absorbed byte makes the message one byte longer. -/
theorem eAbsorb_hasAbsorbed {m : List Byte} {x : Byte} {s t : State} (hs : HasAbsorbed m s)
    (h : eAbsorb x s = .ok t) : HasAbsorbed (m ++ [x]) t := by
  have hcnt := hs.cnt
  have hlive := take_poke_cnt x s
  have hlen : (m ++ [x]).length = m.length + 1 := by simp
  obtain ⟨hlt, rfl⟩ | ⟨h63, -, rfl⟩ := eAbsorb_ok_cases h
  · have hblocks : (m.length + 1) / 64 = m.length / 64 := by omega
    have hnext : (s.cnt + 1#6).toNat = s.cnt.toNat + 1 := by
      rw [BitVec.toNat_add, BitVec.toNat_ofNat]
      omega
    constructor
    case h => rw [hlen, hblocks, compressBlocks_append _ (by omega), ← hs.h]
    case rest =>
      rw [hlen, hblocks, List.drop_append_of_le_length (by omega), ← hs.rest, ← hlive, liveBytes, hnext]
    case bitlen => rw [hlen, hblocks, ← hs.bitlen]
  · have hblocks : (m.length + 1) / 64 = m.length / 64 + 1 := by omega
    have hblock : poke s.buf s.cnt.toNat x = blockOf ((m ++ [x]).drop (64 * (m.length / 64))) := by
      rw [List.drop_append_of_le_length (by omega), ← hs.rest, ← hlive, h63,
        List.take_of_length_le (by simp), blockOf_toList]
    constructor
    case h =>
      rw [hlen, hblocks, compressBlocks_add, compressBlocks_append _ (by omega), ← hs.h, compressBlocks_one, ← hblock,
        compressBuffer_eq]
    case rest =>
      rw [hlen, hblocks, List.drop_of_length_le (by omega)]
      rfl
    case bitlen =>
      rw [hlen, hblocks, Nat.mul_add, BitVec.ofNat_add, ← hs.bitlen]

theorem absorbAll_hasAbsorbed {m xs : List Byte} {s t : State} (hs : HasAbsorbed m s) (h : absorbAll xs s = .ok t) :
    HasAbsorbed (m ++ xs) t := by
  induction xs generalizing m s with
  | nil =>
    cases h
    rwa [List.append_nil]
  | cons x xs ih =>
    simp only [absorbAll] at h
    split at h
    · rename_i u hu
      rw [List.append_cons]
      exact ih (eAbsorb_hasAbsorbed hs hu) h
    · cases h

/-! ### Finalisation of a message -/

/-- The length field holds the bit length of the message (R132). -/
theorem HasAbsorbed.lengthField {m : List Byte} {s : State} (hs : HasAbsorbed m s) :
    lengthField s = lengthBytes (BitVec.ofNat 64 (8 * m.length)) := by
  have hbits : 512 * (m.length / 64) + 8 * s.cnt.toNat = 8 * m.length := by
    rw [hs.cnt]
    omega
  rw [Machine.lengthField, hs.bitlen, ← hbits, BitVec.ofNat_add, BitVec.ofNat_add, BitVec.ofNat_toNat,
    BitVec.setWidth_eq]

/-- What follows the whole blocks in the padded message is what the final blocks hold (R132, R139). -/
theorem HasAbsorbed.drop_padMessage {m : List Byte} {s : State} (hs : HasAbsorbed m s) :
    (padMessage m).drop (64 * (m.length / 64))
      = liveBytes s ++ [0x80#8] ++ List.replicate (padZeros m.length) 0x00#8 ++ Machine.lengthField s := by
  rw [padMessage, List.append_assoc, List.append_assoc, List.drop_append_of_le_length (by omega), ← hs.rest,
    ← hs.lengthField, List.append_assoc, List.append_assoc]

/-- Finalisation leaves in H the padded message compressed block by block. -/
theorem HasAbsorbed.finalH {m : List Byte} {s : State} (hs : HasAbsorbed m s) :
    finalH s = compressBlocks ((padMessage m).length / 64) initialH (padMessage m) := by
  have hcnt := hs.cnt
  have hlen : (padMessage m).length = m.length + 9 + padZeros m.length := by
    simp only [padMessage, List.length_append, List.length_singleton, List.length_replicate, lengthBytes_length]
    omega
  have hwhole : compressBlocks (m.length / 64) initialH (padMessage m) = s.h := by
    rw [padMessage, List.append_assoc, List.append_assoc, compressBlocks_append _ (by omega), ← hs.h]
  rw [Machine.finalH, finalBlocks]
  by_cases h : s.cnt.toNat ≤ 55
  · have hzeros : padZeros m.length = 55 - s.cnt.toNat := by
      rw [padZeros]
      omega
    have hcount : (padMessage m).length / 64 = m.length / 64 + 1 := by omega
    rw [if_pos h, hcount, compressBlocks_add, hwhole, hs.drop_padMessage, hzeros]
    rfl
  · have hzeros : padZeros m.length = (63 - s.cnt.toNat) + 56 := by
      rw [padZeros]
      omega
    have hcount : (padMessage m).length / 64 = m.length / 64 + 2 := by omega
    have hfirst : (liveBytes s ++ [0x80#8] ++ List.replicate (63 - s.cnt.toNat) 0x00#8).length = 64 := by
      simp only [List.length_append, liveBytes_length, List.length_singleton, List.length_replicate]
      omega
    have hsplit (l : List Byte) :
        liveBytes s ++ [0x80#8] ++ List.replicate ((63 - s.cnt.toNat) + 56) 0x00#8 ++ l
          = (liveBytes s ++ [0x80#8] ++ List.replicate (63 - s.cnt.toNat) 0x00#8)
            ++ (List.replicate 56 0x00#8 ++ l) := by
      rw [List.replicate_add]
      simp only [List.append_assoc]
    rw [if_neg h, hcount, compressBlocks_add, hwhole, hs.drop_padMessage, hzeros, hsplit, compressBlocks_two _ hfirst,
      List.foldl_cons, List.foldl_cons, List.foldl_nil]

/-- E_INIT, the bytes of a message and E_FINAL leave the digest of the message in H (R139). -/
theorem digest_eFinal {m : List Byte} {s t : State} (h : absorbAll m (eInit s) = .ok t) :
    (digest (eFinal t).h).toList = hashBytes m := by
  have hm : HasAbsorbed m t := absorbAll_hasAbsorbed (eInit_hasAbsorbed s) h
  rw [eFinal_h, hm.finalH, hashBytes]

/-- A message that R139 allows is absorbed without a fault. -/
theorem absorbAll_eInit_ok {m : List Byte} (h : m.length ≤ 2 ^ 61 - 1) (s : State) :
    ∃ t, absorbAll m (eInit s) = .ok t := by
  obtain ⟨hw, hzero⟩ := eInit_counts s
  obtain ⟨t, ht, -⟩ := absorbAll_counts (xs := m) hw (by omega)
  exact ⟨t, ht⟩

/-! ### Compressions (R140) -/

/-- Absorbed bytes are counted by the compressions and CNT together. -/
theorem eAbsorb_draws {x : Byte} {s t : State} (h : eAbsorb x s = .ok t) :
    64 * t.draws + t.cnt.toNat = 64 * s.draws + s.cnt.toNat + 1 := by
  obtain ⟨hlt, rfl⟩ | ⟨h63, -, rfl⟩ := eAbsorb_ok_cases h
  · simp only [BitVec.toNat_add, BitVec.toNat_ofNat]
    omega
  · simp only [compressBuffer_draws, BitVec.toNat_ofNat]
    omega

theorem absorbAll_draws {xs : List Byte} {s t : State} (h : absorbAll xs s = .ok t) :
    64 * t.draws + t.cnt.toNat = 64 * s.draws + s.cnt.toNat + xs.length := by
  induction xs generalizing s with
  | nil =>
    cases h
    rfl
  | cons x xs ih =>
    simp only [absorbAll] at h
    split at h
    · rename_i u hu
      have hfirst := eAbsorb_draws hu
      have hrest := ih h
      rw [List.length_cons]
      omega
    · cases h

/-- The compressions of E_INIT, a message and E_FINAL. -/
theorem eFinal_absorbAll_draws {m : List Byte} {s t : State} (h : absorbAll m (eInit s) = .ok t) :
    (eFinal t).draws = s.draws + m.length / 64 + (if m.length % 64 ≤ 55 then 1 else 2) := by
  have hcnt := (absorbAll_hasAbsorbed (eInit_hasAbsorbed s) h).cnt
  have hdraws := absorbAll_draws h
  simp only [eInit_draws, eInit_cnt, BitVec.toNat_ofNat, List.nil_append] at hdraws hcnt
  rw [eFinal_draws, hcnt]
  omega

end Sys2Proof.Machine
end

section
/-! PROOF. The sequence HASH m (`30_encoding.md` R95, `41_hash_commands.md` R139, R140): its commands are E_INIT, the
absorption of the message and E_FINAL, and then reads of the digest. -/

namespace Sys2Proof.Machine

/-- What a command that absorbs a byte needs is left by the byte before it. -/
theorem absorbs_of_eAbsorb {command : Byte → Instr} {x : Byte} {s t : State} (ha : ∀ y, Absorbs (command y) y s)
    (h : eAbsorb x s = .ok t) (y : Byte) : Absorbs (command y) y t := by
  have f := eAbsorb_frame h
  have he := eAbsorb_ephase h
  simpa only [Absorbs, f.session, f.mphase, f.longkey, he] using ha y

/-- A run of absorbing commands is the absorption of their bytes; each responds 0x00. -/
theorem runCommands_absorb {command : Byte → Instr} {xs : List Byte} {s t : State}
    (ha : ∀ y, Absorbs (command y) y s) (hf : s.fault = false) (hrsp : s.rsp = 0x00#8) (h : absorbAll xs s = .ok t) :
    runCommands (xs.map command) s = .next (List.replicate xs.length 0x00#8, t) := by
  induction xs generalizing s with
  | nil =>
    cases h
    rfl
  | cons x xs ih =>
    simp only [absorbAll] at h
    split at h
    · rename_i u hu
      have f := eAbsorb_frame hu
      have hzero : respond 0x00#8 u = u := by rw [← hrsp, ← f.rsp]; rfl
      have hexec : exec (command x) s = .next u := hzero ▸ exec_absorbs hf (ha x) hu
      have hrest := ih (absorbs_of_eAbsorb ha hu) (f.fault.trans hf) (f.rsp.trans hrsp) h
      rw [List.map_cons, runCommands_cons hexec hrest, f.rsp, hrsp]
      rfl
    · cases h

/-- A run of READs shows the digest bytes asked for, and leaves all but the response. -/
theorem runCommands_read {read : Byte → Instr} {s : State} {is : List Nat} (hf : s.fault = false)
    (hr : ReadsDigest read s) (his : ∀ i ∈ is, i < 20) :
    ∃ v, runCommands (is.map fun i => read (BitVec.ofNat 8 i)) s = .next (is.map (digestByte s.h), respond v s) := by
  induction is generalizing s with
  | nil => exact ⟨s.rsp, rfl⟩
  | cons i is ih =>
    obtain ⟨hi, his⟩ := List.forall_mem_cons.mp his
    obtain ⟨v, hrest⟩ := ih (s := respond (digestByte s.h i) s) hf hr his
    exact ⟨v, runCommands_cons (exec_readsDigest hf hr hi) hrest⟩

theorem map_digestByte_range (h : Vector Word 5) : (List.range 20).map (digestByte h) = (digest h).toList := by
  apply List.ext_getElem
  · simp
  · intro i hi _
    simp [digest]

/-- The 20 READs show the digest. -/
theorem runCommands_readAll {read : Byte → Instr} {s : State} (hf : s.fault = false) (hr : ReadsDigest read s) :
    ∃ v, runCommands ((List.range 20).map fun i => read (BitVec.ofNat 8 i)) s
      = .next ((digest s.h).toList, respond v s) := by
  rw [← map_digestByte_range]
  exact runCommands_read hf hr fun i hi => List.mem_range.mp hi

/-- H.INIT is E_INIT in a hash session. -/
theorem exec_hInit {s : State} (hf : s.fault = false) :
    ∃ w, exec .hInit s = .next (eInit w) ∧ w.session = .hash ∧ w.fault = false ∧ w.rsp = 0x00#8 ∧
      w.draws = s.draws :=
  ⟨{ s with session := .hash, mphase := .idle, kbuf := zeroBytes, klen := 0#7, longkey := false, rsp := 0x00#8 },
    runCommand_ok (body := hInitBody) hf rfl, rfl, hf, rfl, rfl⟩

theorem expand_hash_eq_cons (m : List Byte) :
    expand (.hash m) = .hInit :: (m.map .hAbsorb ++ .hFinal :: expand .hReadAll) := by
  simp [expand]

/-- The zero responses before the digest: those of H.INIT, of the message and of H.FINAL. -/
theorem replicate_zero_append (n : Nat) (d : List Byte) :
    List.replicate (2 + n) 0x00#8 ++ d = 0x00#8 :: (List.replicate n 0x00#8 ++ 0x00#8 :: d) := by
  rw [Nat.add_comm, List.replicate_succ, List.replicate_succ', List.cons_append, List.append_assoc]
  rfl

/-- HASH m runs E_INIT, absorbs m and runs E_FINAL; then it shows the digest, without a fault. -/
theorem runCommands_hash {m : List Byte} {s : State} (hf : s.fault = false) (hm : m.length ≤ 2 ^ 61 - 1) :
    ∃ w u v, w.draws = s.draws ∧ absorbAll m (eInit w) = .ok u ∧ u.fault = false ∧
      runCommands (expand (.hash m)) s
        = .next (List.replicate (2 + m.length) 0x00#8 ++ (digest (eFinal u).h).toList, respond v (eFinal u)) := by
  obtain ⟨w, hinit, hsession, hfault, hrsp, hdraws⟩ := exec_hInit hf
  obtain ⟨u, hu⟩ := absorbAll_eInit_ok hm w
  obtain ⟨-, hphase⟩ := absorbAll_frame hu
  have f : EngineFrame w u := absorbAll_eInit_frame hu
  have g := eFinal_frame u
  have huf : u.fault = false := f.fault.trans hfault
  obtain ⟨v, hread⟩ := runCommands_readAll (read := .hRead) (s := respond 0x00#8 (eFinal u)) (g.fault.trans huf)
    (.inl ⟨rfl, g.session.trans (f.session.trans hsession), rfl⟩)
  have hfinal := runCommands_cons (exec_hFinal huf (f.session.trans hsession) hphase) hread
  have ha (y : Byte) : Absorbs (.hAbsorb y) y (eInit w) := .inl ⟨rfl, hsession, rfl⟩
  have habsorb := runCommands_absorb ha hfault hrsp hu
  refine ⟨w, u, v, hdraws, hu, huf, ?_⟩
  have hrun := runCommands_cons hinit (runCommands_append habsorb hfinal)
  rw [eInit_rsp, hrsp, respond_rsp, respond_h, ← replicate_zero_append] at hrun
  rwa [expand_hash_eq_cons]

/-- Settles O44: the last 20 values are the digest that finalisation leaves. -/
theorem hashSequenceReturnsTheDigest : Obligations.HashSequenceReturnsTheDigest := by
  intro m s hf hm
  obtain ⟨w, u, v, -, hu, huf, hrun⟩ := runCommands_hash hf hm
  refine ⟨_, _, hrun, (eFinal_frame u).fault.trans huf, ?_⟩
  rw [List.drop_left' List.length_replicate, digest_eFinal hu]

/-- Settles O46: only the bytes of the message and E_FINAL draw. -/
theorem hashSequenceCostsItsCompressions : Obligations.HashSequenceCostsItsCompressions := by
  intro m s t out hf hm h
  obtain ⟨w, u, v, hdraws, hu, -, hrun⟩ := runCommands_hash hf hm
  cases hrun.symm.trans h
  rw [respond_draws, eFinal_absorbAll_draws hu, hdraws]

end Sys2Proof.Machine
end

section
/-! PROOF. What each HMAC command does (`42_hmac_commands.md` R153 to R157): a whole block absorbed after E_INIT, and so
the start of a key hash, the inner pad, and the outer hash, each as one state update. -/

namespace Sys2Proof.Machine

/-- Settles O22: M.INIT has no guard, and its body is the stated update. -/
theorem mInitOpensAWipedHmacSession : Obligations.MInitOpensAWipedHmacSession :=
  fun _ hf => runCommand_ok (body := mInitBody) hf rfl

/-- A block's worth of bytes after E_INIT, as an update of the state before E_INIT. -/
theorem absorbAll_eInit_block {xs : List Byte} (h : xs.length = 64) (s : State) :
    absorbAll xs (eInit s) = .ok { s with
      h := compress initialH (blockOf xs), buf := blockOf xs, cnt := 0#6, bitlen := 512#64, ephase := .absorb
      dp := freeDatapath s.draws, draws := s.draws + 1 } := by
  rw [absorbAll_block xs h, compressBuffer_eq]
  rfl

/-! ### M.KEY (R154) -/

theorem exec_mKey_keeps {x : Byte} {s : State} (hf : s.fault = false) (hsession : s.session = .hmac)
    (hphase : s.mphase = .key) (hl : s.longkey = false) (hn : s.klen.toNat < 64) :
    exec (.mKey x) s = .next (respond 0x00#8 (keepKeyByte x s)) :=
  runCommand_ok (body := mKeyBody x) hf (by simp [mKeyBody, hsession, hphase, hl, hn])

/-- The 64 held bytes are compressed, and byte 65 is the first of the next block. -/
theorem absorbAll_key65 (x : Byte) (s : State) :
    absorbAll (s.kbuf.toList ++ [x]) (eInit s) = .ok { s with
      h := compress initialH s.kbuf, buf := poke s.kbuf 0 x, cnt := 1#6, bitlen := 512#64, ephase := .absorb
      dp := freeDatapath s.draws, draws := s.draws + 1 } := by
  rw [absorbAll_append, absorbAll_eInit_block s.kbuf.length_toList, blockOf_toList]
  simp only [Except.bind, absorbAll]
  rw [eAbsorb_buffers (by simp)]
  rfl

theorem exec_mKey_starts {x : Byte} {s u : State} (hf : s.fault = false) (hsession : s.session = .hmac)
    (hphase : s.mphase = .key) (hl : s.longkey = false) (hn : s.klen.toNat = 64)
    (hu : absorbAll (s.kbuf.toList ++ [x]) (eInit s) = .ok u) :
    exec (.mKey x) s = .next (respond 0x00#8 { u with kbuf := zeroBytes, longkey := true }) :=
  runCommand_ok (body := mKeyBody x) hf (by
    rw [mKeyBody, startKeyHash_eq, hu]
    simp [hsession, hphase, hl, hn, Except.map])

/-- Settles O23: the three branches of R154; in the third the byte is absorbed as any other, or faults LENGTH. -/
theorem mKeyKeepsOrHashesTheKey : Obligations.MKeyKeepsOrHashesTheKey := by
  intro x s hf hsession hphase
  have absorbs (hl : s.longkey = true) : Absorbs (.mKey x) x s := .inr (.inr ⟨rfl, hsession, hphase, hl⟩)
  refine ⟨fun hl hn => ?keeps, fun hl hn => ?starts, fun hl t ht => ?absorbed, fun hl c hc => ?faults⟩
  case keeps => exact exec_mKey_keeps hf hsession hphase hl hn
  case starts => exact ⟨_, _, exec_mKey_starts hf hsession hphase hl hn (absorbAll_key65 x s)⟩
  case absorbed => exact exec_absorbs hf (absorbs hl) ht
  case faults =>
    obtain ⟨rfl, -⟩ := (eAbsorb_error_iff x s c).mp hc
    rw [exec_eq_runCommand]
    exact ⟨rfl, runCommand_error hf (by rw [bodyOf_absorbs (absorbs hl), hc]; rfl)⟩

/-! ### M.KEYEND (R155) -/

theorem normaliseKey_of_short {s : State} (hl : s.longkey = false) : normaliseKey s = s := by
  simp [normaliseKey, hl]

/-- The digest and 44 zero bytes. -/
theorem ofFn_digestByte_eq_blockOf (h : Vector Word 5) :
    (Vector.ofFn fun i : Fin 64 => if i.val < 20 then digestByte h i.val else 0x00#8)
      = blockOf (digest h).toList := by
  apply ext_peek
  intro j hj
  rw [peek_ofFn _ hj, peek_blockOf _ hj, getD_toList_zero]
  by_cases h20 : j < 20
  · rw [if_pos h20, peek_digest _ h20]
  · rw [if_neg h20, peek_out _ (by omega)]

theorem normaliseKey_of_long {s : State} (hl : s.longkey = true) :
    normaliseKey s = { eFinal s with kbuf := blockOf (digest (finalH s)).toList } := by
  simp only [normaliseKey, hl, if_true, ofFn_digestByte_eq_blockOf, eFinal_h]

/-- M.KEYEND whole: the inner pad of the normalised key absorbed as one block. -/
theorem exec_mKeyEnd {s : State} (hf : s.fault = false) (hsession : s.session = .hmac) (hphase : s.mphase = .key) :
    exec .mKeyEnd s = .next { normaliseKey s with
      klen := 0#7, longkey := false, h := compress initialH (padBlock (normaliseKey s).kbuf ipadByte)
      buf := padBlock (normaliseKey s).kbuf ipadByte, cnt := 0#6, bitlen := 512#64, ephase := .absorb, mphase := .msg
      rsp := 0x00#8, dp := freeDatapath (normaliseKey s).draws, draws := (normaliseKey s).draws + 1 } :=
  runCommand_ok (body := mKeyEndBody) hf (by
    rw [mKeyEndBody_eq, absorbAll_eInit_block (padBytes_length _ _), blockOf_padBytes, if_neg (not_not.mpr hsession),
      if_neg (not_not.mpr hphase)]
    rfl)

/-- Settles O24: a short key is K0 as it stands; of a long one E_FINAL leaves the digest, and E_INIT and the inner pad
overwrite the rest of what it left in the engine. -/
theorem mKeyEndAbsorbsTheInnerPad : Obligations.MKeyEndAbsorbsTheInnerPad := by
  intro s hf hsession hphase
  rw [exec_mKeyEnd hf hsession hphase]
  cases hl : s.longkey with
  | false =>
    rw [normaliseKey_of_short hl]
    exact ⟨s.kbuf, _, _, fun _ => rfl, nofun, rfl⟩
  | true =>
    obtain ⟨dp, hfinal⟩ := eFinal_eq s
    rw [normaliseKey_of_long hl, hfinal]
    exact ⟨blockOf (digest (finalH s)).toList, _, _, nofun, fun _ => rfl, rfl⟩

/-! ### M.FINAL (R157) -/

/-- What E_FINAL is given after the outer pad and the inner digest: the pad is compressed, and one block is left. -/
theorem HasAbsorbed.outer {l : List Byte} {d : Vector Byte 20} {u : State} (hl : l.length = 64)
    (hu : HasAbsorbed (l ++ d.toList) u) :
    u.h = compress initialH (blockOf l) ∧ finalBlocks u = [outerLastBlock d] ∧ u.bitlen = 512#64 ∧ u.cnt = 20#6 := by
  have hlen : (l ++ d.toList).length = 84 := by simp [hl]
  have hcnt : u.cnt.toNat = 20 := by rw [hu.cnt, hlen]
  have hlive : liveBytes u = d.toList := by rw [hu.rest, hlen, List.drop_left' (by rw [hl])]
  refine ⟨?h, ?blocks, by rw [hu.bitlen, hlen], BitVec.eq_of_toNat_eq hcnt⟩
  case h => rw [hu.h, hlen, compressBlocks_append _ (by omega), compressBlocks_one]
  case blocks =>
    rw [finalBlocks, hcnt, if_pos (by decide), hlive, hu.lengthField, hlen]
    rfl

/-- With the engine's registers overwritten, a state with the engine's frame is the state before. -/
theorem EngineFrame.overwrite {s u : State} (f : EngineFrame s u) (h : Vector Word 5) (buf : Vector Byte 64)
    (cnt : BitVec 6) (bitlen : BitVec 64) (ephase : EPhase) (dp : Datapath) (draws : Nat) :
    { u with h := h, buf := buf, cnt := cnt, bitlen := bitlen, ephase := ephase, dp := dp, draws := draws }
      = { s with h := h, buf := buf, cnt := cnt, bitlen := bitlen, ephase := ephase, dp := dp, draws := draws } := by
  simp only [f.mphase, f.kbuf, f.klen, f.longkey, f.idig, f.session, f.fault, f.errcode, f.rsp, f.cmdReady, f.rspValid,
    f.host]

/-- The second invocation whole. -/
theorem runOuter_ok (s : State) :
    ∃ dp draws, runOuter s = .ok { s with
      h := compress (compress initialH (padBlock s.kbuf opadByte)) (outerLastBlock s.idig)
      buf := outerLastBlock s.idig, cnt := 0#6, bitlen := 672#64, ephase := .done, dp := dp, draws := draws } := by
  obtain ⟨u, hu⟩ := absorbAll_eInit_ok (m := padBytes s.kbuf opadByte ++ s.idig.toList) (by simp) s
  obtain ⟨hh, hblocks, hbitlen, hcnt⟩ := (absorbAll_hasAbsorbed (eInit_hasAbsorbed s) hu).outer (padBytes_length _ _)
  obtain ⟨dp, hfinal⟩ := eFinal_eq u
  rw [blockOf_padBytes] at hh
  rw [finalH, hblocks, hh, hbitlen, hcnt, (absorbAll_eInit_frame hu).overwrite] at hfinal
  rw [runOuter_eq, hu, Except.map, hfinal]
  exact ⟨dp, _, rfl⟩

/-- Settles O25: E_FINAL leaves the inner digest, and the second invocation overwrites the rest of what it left in the
engine. -/
theorem mFinalRunsTheOuterHash : Obligations.MFinalRunsTheOuterHash := by
  intro s hf hsession hphase
  obtain ⟨_, hfinal⟩ := eFinal_eq s
  obtain ⟨dp, draws, houter⟩ := runOuter_ok (finishInner s)
  refine ⟨dp, freeInnerDigest s.draws, draws, runCommand_ok (body := mFinalBody) hf ?_⟩
  rw [mFinalBody_eq, houter, if_neg (not_not.mpr hsession), if_neg (not_not.mpr hphase), finishInner, hfinal]
  rfl

end Sys2Proof.Machine
end

section
/-! PROOF. The normalised key (`42_hmac_commands.md` R150, R160): the key, or the digest of a long key, as a block. -/

namespace Sys2Proof.Machine

theorem blockOf_append_zeros (l : List Byte) (n : Nat) : blockOf (l ++ List.replicate n 0x00#8) = blockOf l := by
  apply ext_peek
  intro j hj
  rw [peek_blockOf _ hj, peek_blockOf _ hj, getD_append_zero]
  split
  · rfl
  · rw [getD_replicate_zero, List.getD_eq_default _ _ (by omega)]

theorem toList_blockOf {l : List Byte} (h : l.length = 64) : (blockOf l).toList = l :=
  congrArg Vector.toList (blockOf_toList ⟨l.toArray, h⟩)

theorem normalKey_of_short {k : List Byte} (h : k.length ≤ 64) : normalKey k = (blockOf k).toList := by
  rw [normalKey, if_neg (by omega), ← blockOf_append_zeros k (64 - k.length), toList_blockOf (by simp; omega)]

@[simp] theorem hashBytes_length (m : List Byte) : (hashBytes m).length = 20 := digest_toList_length _

theorem normalKey_of_long {k : List Byte} (h : 64 < k.length) : normalKey k = (blockOf (hashBytes k)).toList := by
  rw [← normalKey_of_short (by simp), normalKey, normalKey, if_pos h, if_neg (by simp)]

/-- A tag depends on its key through the normalised key alone (R152). -/
theorem hmacBytes_congr {k l : List Byte} (h : normalKey k = normalKey l) (m : List Byte) :
    hmacBytes k m = hmacBytes l m := by
  simp only [hmacBytes, outerPad, innerPad, h]

/-- Settles O47: in each law both keys normalise to the same block. -/
theorem keyNormalisationLaws : Obligations.KeyNormalisationLaws := by
  refine ⟨fun k m hk => hmacBytes_congr ?long m, fun k m n hk hn => hmacBytes_congr ?short m⟩
  case long => rw [normalKey_of_long hk, normalKey_of_short (by simp)]
  case short => rw [normalKey_of_short (by simp; omega), normalKey_of_short hk, blockOf_append_zeros]

end Sys2Proof.Machine
end

section
/-! PROOF. The sequence HMAC k, m (`30_encoding.md` R96, `42_hmac_commands.md` R159), command by command: what the block
holds of the key, then of the key and the message, then the tag. -/

namespace Sys2Proof.Machine

/-! ### The key -/

/-- An HMAC session without a fault that has taken the key bytes k: up to 64 of them stand in KBUF, and more of them are
in the engine (R154). -/
structure HasTakenKey (k : List Byte) (s : State) : Prop where
  session : s.session = .hmac
  mphase : s.mphase = .key
  fault : s.fault = false
  key : (k.length ≤ 64 ∧ s.longkey = false ∧ s.klen.toNat = k.length ∧ s.kbuf = blockOf k) ∨
    (64 < k.length ∧ s.longkey = true ∧ HasAbsorbed k s)

theorem exec_mInit_hasTakenKey {s : State} (hf : s.fault = false) :
    ∃ t, exec .mInit s = .next t ∧ HasTakenKey [] t :=
  ⟨_, mInitOpensAWipedHmacSession s hf, rfl, rfl, hf, .inl ⟨Nat.zero_le _, rfl, rfl, rfl⟩⟩

/-- A message that R139 allows is counted by the engine in full. -/
theorem HasAbsorbed.counts {m : List Byte} {s : State} (hs : HasAbsorbed m s) (hm : m.length ≤ 2 ^ 61 - 1) :
    CountsFit s ∧ absorbedBits s = 8 * m.length := by
  have hcnt := hs.cnt
  have hbitlen : s.bitlen.toNat = 512 * (m.length / 64) := by
    rw [hs.bitlen, BitVec.toNat_ofNat]
    omega
  unfold CountsFit absorbedBits
  omega

/-- More bytes are absorbed without a fault while R139 allows the message. -/
theorem HasAbsorbed.absorbAll_ok {m xs : List Byte} {s : State} (hs : HasAbsorbed m s)
    (hm : m.length + xs.length ≤ 2 ^ 61 - 1) : ∃ t, absorbAll xs s = .ok t ∧ HasAbsorbed (m ++ xs) t := by
  obtain ⟨hfit, hbits⟩ := hs.counts (by omega)
  obtain ⟨t, ht, -⟩ := absorbAll_counts (xs := xs) hfit (by omega)
  exact ⟨t, ht, absorbAll_hasAbsorbed hs ht⟩

theorem blockOf_concat {l : List Byte} (x : Byte) (h : l.length < 64) :
    blockOf (l ++ [x]) = poke (blockOf l) l.length x := by
  apply ext_peek
  intro j hj
  rw [peek_blockOf _ hj, peek_poke, peek_blockOf _ hj, getD_append_zero]
  rcases Nat.lt_trichotomy j l.length with hlt | rfl | hgt
  · rw [if_pos hlt, if_neg (by omega)]
  · simp [h]
  · rw [if_neg (by omega), if_neg (by omega), List.getD_eq_default _ _ (by simp; omega),
      List.getD_eq_default _ _ (by omega)]

/-- A byte that fits extends the key in KBUF; byte 65 moves it into the engine, where the later ones follow it. -/
theorem exec_mKey_hasTakenKey {k : List Byte} {s : State} (x : Byte) (hs : HasTakenKey k s)
    (hk : k.length + 1 ≤ 2 ^ 61 - 1) : ∃ t, exec (.mKey x) s = .next t ∧ HasTakenKey (k ++ [x]) t := by
  have hlen : (k ++ [x]).length = k.length + 1 := by simp
  obtain ⟨hsession, hphase, hf, ⟨hshort, hl, hn, hkbuf⟩ | ⟨hlong, hl, habs⟩⟩ := hs
  · rcases Nat.lt_or_ge k.length 64 with hlt | hge
    · have hklen : (s.klen + 1#7).toNat = k.length + 1 := by
        rw [BitVec.toNat_add, BitVec.toNat_ofNat]
        omega
      have hbuf : poke s.kbuf s.klen.toNat x = blockOf (k ++ [x]) := by rw [hn, hkbuf, blockOf_concat x hlt]
      exact ⟨_, exec_mKey_keeps hf hsession hphase hl (by omega), hsession, hphase, hf,
        .inl ⟨by omega, hl, hklen.trans hlen.symm, hbuf⟩⟩
    · have hbytes : s.kbuf.toList = k := by rw [hkbuf, toList_blockOf (by omega)]
      have hu := absorbAll_key65 x s
      have habs := absorbAll_hasAbsorbed (eInit_hasAbsorbed s) hu
      rw [List.nil_append, hbytes] at habs
      exact ⟨_, exec_mKey_starts hf hsession hphase hl (by omega) hu, hsession, hphase, hf,
        .inr ⟨by omega, rfl, { habs with }⟩⟩
  · obtain ⟨hfit, hbits⟩ := habs.counts (by omega)
    obtain ⟨t, ht, -⟩ := eAbsorb_counts (x := x) hfit (by omega)
    have f := eAbsorb_frame ht
    exact ⟨_, exec_absorbs hf (.inr (.inr ⟨rfl, hsession, hphase, hl⟩)) ht, f.session.trans hsession,
      f.mphase.trans hphase, f.fault.trans hf,
      .inr ⟨by omega, f.longkey.trans hl, { eAbsorb_hasAbsorbed habs ht with }⟩⟩

theorem runCommands_mKey {k xs : List Byte} {s : State} (hs : HasTakenKey k s)
    (hk : k.length + xs.length ≤ 2 ^ 61 - 1) :
    ∃ out t, runCommands (xs.map .mKey) s = .next (out, t) ∧ out.length = xs.length ∧ HasTakenKey (k ++ xs) t := by
  induction xs generalizing k s with
  | nil => exact ⟨[], s, rfl, rfl, by rwa [List.append_nil]⟩
  | cons x xs ih =>
    rw [List.length_cons] at hk
    obtain ⟨t, hexec, ht⟩ := exec_mKey_hasTakenKey x hs (by omega)
    obtain ⟨out, u, hrun, hlen, hu⟩ := ih ht (by simp; omega)
    exact ⟨_, u, runCommands_cons hexec hrun, by simp [hlen], by rwa [List.append_cons]⟩

/-! ### The message -/

/-- An HMAC session without a fault that has taken the key k and the message bytes m: KBUF holds K0, and the engine the
inner pad and the message (R155, R156). -/
structure HasTakenMessage (k m : List Byte) (s : State) : Prop where
  session : s.session = .hmac
  mphase : s.mphase = .msg
  fault : s.fault = false
  kbuf : s.kbuf.toList = normalKey k
  absorbed : HasAbsorbed (innerPad k ++ m) s

/-- KBUF after the normalisation holds K0 (R150). -/
theorem HasTakenKey.normaliseKey {k : List Byte} {s : State} (hs : HasTakenKey k s) :
    (normaliseKey s).kbuf.toList = normalKey k := by
  obtain ⟨-, -, -, ⟨hshort, hl, -, hkbuf⟩ | ⟨hlong, hl, habs⟩⟩ := hs
  · rw [normaliseKey_of_short hl, hkbuf, normalKey_of_short hshort]
  · rw [normaliseKey_of_long hl, habs.finalH, normalKey_of_long hlong, hashBytes]

theorem normalKey_length (k : List Byte) : (normalKey k).length = 64 := by
  rcases Nat.lt_or_ge 64 k.length with hlong | hshort
  · simp [normalKey_of_long hlong]
  · simp [normalKey_of_short hshort]

theorem innerPad_length (k : List Byte) : (innerPad k).length = 64 := by
  simp [innerPad, normalKey_length]

theorem exec_mKeyEnd_hasTakenMessage {k : List Byte} {s : State} (hs : HasTakenKey k s) :
    ∃ t, exec .mKeyEnd s = .next t ∧ t.rsp = 0x00#8 ∧ HasTakenMessage k [] t := by
  have hkbuf := hs.normaliseKey
  have f := normaliseKey_frame s
  refine ⟨_, exec_mKeyEnd hs.fault hs.session hs.mphase, rfl, f.session.trans hs.session, rfl,
    f.fault.trans hs.fault, hkbuf, ?absorbed⟩
  have hpad : padBytes (Machine.normaliseKey s).kbuf ipadByte = innerPad k := by rw [padBytes, hkbuf, innerPad]
  have hlen := innerPad_length k
  rw [List.append_nil]
  constructor
  case h => rw [hlen, compressBlocks_one, ← hpad, blockOf_padBytes]
  case rest =>
    rw [hlen, List.drop_of_length_le (by omega)]
    rfl
  case bitlen => rw [hlen]

theorem runCommands_mMsg {k m : List Byte} {s : State} (hs : HasTakenMessage k [] s) (hrsp : s.rsp = 0x00#8)
    (hm : m.length ≤ 2 ^ 61 - 65) :
    ∃ t, runCommands (m.map .mMsg) s = .next (List.replicate m.length 0x00#8, t) ∧ HasTakenMessage k m t := by
  obtain ⟨hsession, hphase, hf, hkbuf, habs⟩ := hs
  rw [List.append_nil] at habs
  obtain ⟨t, ht, htabs⟩ := habs.absorbAll_ok (xs := m) (by rw [innerPad_length]; omega)
  obtain ⟨f, -⟩ := absorbAll_frame ht
  exact ⟨t, runCommands_absorb (fun y => .inr (.inl ⟨rfl, hsession, hphase⟩)) hf hrsp ht, f.session.trans hsession,
    f.mphase.trans hphase, f.fault.trans hf, by rw [f.kbuf, hkbuf], htabs⟩

/-! ### The tag -/

/-- The hash of a block's worth of bytes and a digest (R152): the block, and the last block of R157. -/
theorem hashBytes_outer {l : List Byte} (hl : l.length = 64) (d : Vector Byte 20) :
    hashBytes (l ++ d.toList) = (digest (compress (compress initialH (blockOf l)) (outerLastBlock d))).toList := by
  have hlen : (l ++ d.toList).length = 84 := by simp [hl]
  have hpad : padMessage (l ++ d.toList)
      = l ++ (d.toList ++ [0x80#8] ++ List.replicate 35 0x00#8 ++ lengthBytes 672#64) := by
    rw [padMessage, hlen]
    simp only [List.append_assoc]
    rfl
  have hblocks : (padMessage (l ++ d.toList)).length / 64 = 2 := by simp [hpad, hl]
  rw [hashBytes, hblocks, hpad, compressBlocks_two _ hl, outerLastBlock]

theorem exec_mFinal_tag {k m : List Byte} {s : State} (hs : HasTakenMessage k m s) :
    ∃ t, exec .mFinal s = .next t ∧ t.fault = false ∧ ReadsDigest .mRead t ∧
      (digest t.h).toList = hmacBytes k m := by
  obtain ⟨hsession, hphase, hf, hkbuf, habs⟩ := hs
  obtain ⟨dp, idig, draws, hexec⟩ := mFinalRunsTheOuterHash s hf hsession hphase
  refine ⟨_, hexec, hf, .inr ⟨rfl, hsession, rfl⟩, ?tag⟩
  have hinner : (digest (finalH s)).toList = hashBytes (innerPad k ++ m) := by rw [habs.finalH, hashBytes]
  have houter : padBytes s.kbuf opadByte = outerPad k := by rw [padBytes, hkbuf, outerPad]
  rw [hmacBytes, ← hinner, ← houter, hashBytes_outer (padBytes_length _ _), blockOf_padBytes]
  rfl

theorem runCommands_singleton {i : Instr} {s t : State} (h : exec i s = .next t) :
    runCommands [i] s = .next ([t.rsp], t) :=
  runCommands_cons h rfl

/-- Settles O45: the parts of the sequence in turn; the tag is what M.FINAL leaves in H. -/
theorem hmacSequenceReturnsTheTag : Obligations.HmacSequenceReturnsTheTag := by
  intro k m s hf hk hm
  obtain ⟨s₁, hinit, h₁⟩ := exec_mInit_hasTakenKey hf
  obtain ⟨out, s₂, hkey, hout, h₂⟩ := runCommands_mKey (xs := k) h₁ (by simpa using hk)
  obtain ⟨s₃, hkeyEnd, hrsp, h₃⟩ := exec_mKeyEnd_hasTakenMessage h₂
  obtain ⟨s₄, hmsg, h₄⟩ := runCommands_mMsg h₃ hrsp hm
  obtain ⟨s₅, hfinal, h₅, hreads, htag⟩ := exec_mFinal_tag h₄
  obtain ⟨v, hread⟩ := runCommands_readAll h₅ hreads
  have htaken := runCommands_append (runCommands_singleton hinit)
    (runCommands_append hkey (runCommands_singleton hkeyEnd))
  have hrun := runCommands_append
    (runCommands_append (runCommands_append htaken hmsg) (runCommands_singleton hfinal)) hread
  refine ⟨_, _, hrun, h₅, ?_⟩
  rw [List.drop_left' (by simp [hout]; omega), htag, List.nil_append]

end Sys2Proof.Machine
end

section
/-! PROOF. The step by the host's next event (`60_exceptions.md` R183 to R185, R190, R192): every event is answered, an
idle edge holds the state, a faulted block ignores every word, and only a reset leaves the fault. -/

namespace Sys2Proof.Machine

/-- Everything a step can do, on the state with the event taken off the host's stream: an idle edge, a reset edge, or the
run of an accepted word to its completion (`20_memory.md` R58). -/
theorem step_cases (s : State) :
    ∃ u rest draws, u = { s with host := rest, draws := draws } ∧
      (step s = .next (idleEdge u) ∨ (s.host = .reset :: rest ∧ step s = .next (resetBlock u)) ∨
        ∃ w, step s = completed (runWord w u)) := by
  unfold step
  cases hhost : s.host with
  | nil => exact ⟨s, [], s.draws, by rw [← hhost], .inl rfl⟩
  | cons event rest =>
    cases event with
    | command w => exact ⟨_, rest, s.draws, rfl, .inr (.inr ⟨w, rfl⟩)⟩
    | unstable => exact ⟨_, rest, s.draws + 1, rfl, .inr (.inr ⟨_, rfl⟩)⟩
    | idle => exact ⟨_, rest, s.draws, rfl, .inl rfl⟩
    | reset => exact ⟨_, rest, s.draws, rfl, .inr (.inl ⟨rfl, rfl⟩)⟩

/-- While FAULT = 1 a word is ignored, whether it decodes to a command or not (R184). -/
theorem runWord_faulted (w : CmdWord) {s : State} (hf : s.fault = true) : runWord w s = .next (ignoreCommand s) := by
  obtain ⟨i, -, hr⟩ | ⟨r, -, hr⟩ := runWord_eq_runCommand w s
  · rw [hr, runCommand_faulted _ hf]
  · rw [hr, runCommand_faulted _ hf]

theorem completed_runWord_faulted (w : CmdWord) {s : State} (hf : s.fault = true) :
    completed (runWord w s) = .next (markComplete (ignoreCommand s)) := by
  rw [runWord_faulted w hf, completed_next]

/-- Settles O13: both forms of an idle host are one idle edge. -/
theorem idleBlockHoldsItsState : Obligations.IdleBlockHoldsItsState := by
  intro s rest hidle
  obtain hhost | ⟨hhost, rfl⟩ := hidle
  · rw [step, hhost]
    rfl
  · have hstep : step s = .next (idleEdge s) := by rw [step, hhost]
    rw [hstep, ← hhost]
    rfl

/-- Settles O14: an edge is a next state, and so is the completion of an accepted word, which always runs. -/
theorem everyStepAnswersANextState : Obligations.EveryStepAnswersANextState := by
  intro s
  obtain ⟨u, _, _, -, h | ⟨-, h⟩ | ⟨w, h⟩⟩ := step_cases s
  · exact ⟨_, h⟩
  · exact ⟨_, h⟩
  · obtain ⟨t, ht⟩ := runWord_next w u
    exact ⟨markComplete t, by rw [h, ht, completed_next]⟩

/-- Settles O27: the ignored word is taken off the stream and completes. -/
theorem faultedBlockIgnoresEveryWord : Obligations.FaultedBlockIgnoresEveryWord := by
  intro w s rest hf hhost
  rw [step_of_command hhost, completed_runWord_faulted w (s := { s with host := rest }) hf]
  rfl

/-- Every event but a reset leaves a fault and its code: an edge writes neither, and a word is ignored. -/
theorem step_keeps_fault {s t : State} (hf : s.fault = true) (hhost : ∀ rest, s.host ≠ .reset :: rest)
    (h : step s = .next t) : t.fault = true ∧ t.errcode = s.errcode := by
  obtain ⟨u, rest, draws, rfl, hs | ⟨hreset, -⟩ | ⟨w, hs⟩⟩ := step_cases s
  · cases hs.symm.trans h
    exact ⟨hf, rfl⟩
  · exact absurd hreset (hhost rest)
  · rw [completed_runWord_faulted w (s := { s with host := rest, draws := draws }) hf] at hs
    cases hs.symm.trans h
    exact ⟨hf, rfl⟩

/-- Settles O28: no other event leaves the fault (`step_keeps_fault`), and a reset edge writes every register. -/
theorem onlyResetLeavesAFault : Obligations.OnlyResetLeavesAFault := by
  refine ⟨fun s t hf hhost h => step_keeps_fault hf hhost h, fun s rest hhost => ?_⟩
  refine ⟨freeDatapath s.draws, freeInnerDigest s.draws, s.draws + 1, ?_⟩
  rw [step, hhost]
  rfl

/-- Settles O49: the step of one block writes its own place in the device and no other. -/
theorem instancesShareNoState : Obligations.InstancesShareNoState := by
  intro n k d e h
  obtain ⟨t, ht⟩ := everyStepAnswersANextState d[k]
  rw [stepDevice, ht] at h
  cases h
  refine ⟨ht.trans (congrArg _ (Vector.getElem_set_self k.isLt).symm), fun j hj => ?_⟩
  have hne : k.val ≠ j.val := fun hkj => hj (Fin.ext hkj.symm)
  exact Vector.getElem_set_ne k.isLt j.isLt hne

end Sys2Proof.Machine
end

section
/-! PROOF. The code of a fault (`60_exceptions.md` R181 to R183): the code each body raises is the one in the command's
row of the table, on every state; and a word's row is that of the command it decodes to. -/

namespace Sys2Proof.Machine

/-! ### The code a body raises -/

/-- The code a body raises; NONE when it answers a state. -/
def faultCode : Except ErrCode State → ErrCode
  | .ok _ => .none
  | .error c => c

@[simp] theorem faultCode_ok (t : State) : faultCode (.ok t) = .none := rfl

@[simp] theorem faultCode_error (c : ErrCode) : faultCode (.error c) = c := rfl

@[simp] theorem faultCode_ite {g : Prop} [Decidable g] {q r : Except ErrCode State} :
    faultCode (if g then q else r) = if g then faultCode q else faultCode r := by
  split <;> rfl

@[simp] theorem faultCode_map (f : State → State) (r : Except ErrCode State) : faultCode (r.map f) = faultCode r := by
  cases r <;> rfl

theorem error_of_faultCode {r : Except ErrCode State} (h : faultCode r ≠ .none) : r = .error (faultCode r) := by
  cases r with
  | ok t => exact absurd rfl h
  | error c => rfl

/-- E_ABSORB raises LENGTH where the table says so. -/
theorem faultCode_eAbsorb (x : Byte) (s : State) :
    faultCode (eAbsorb x s) = if s.cnt.toNat = 63 ∧ s.bitlen.toNat = 2 ^ 64 - 512 then .length else .none := by
  split
  · rename_i hfull
    obtain ⟨h63, hb⟩ := hfull
    rw [(eAbsorb_error_iff x s .length).mpr ⟨rfl, h63, (eq_lastBlockBits_iff _).mpr hb⟩, faultCode_error]
  · rename_i hroom
    cases h : eAbsorb x s with
    | ok t => rfl
    | error c =>
      obtain ⟨-, h63, hb⟩ := (eAbsorb_error_iff x s c).mp h
      exact absurd ⟨h63, (eq_lastBlockBits_iff _).mp hb⟩ hroom

/-- A READ's check of its index is the table's. -/
theorem ite_indexInRange (k : Byte) :
    (if indexInRange k = false then ErrCode.index else .none) = if 20 ≤ k.toNat then .index else .none := by
  by_cases hk : 20 ≤ k.toNat
  · simp [indexInRange, hk]
  · simp [indexInRange, hk, Nat.not_le.mp hk]

/-- After E_INIT there is room for two blocks: the key, the pads and the inner digest never raise LENGTH. -/
theorem faultCode_absorbAll_eInit {xs : List Byte} (h : xs.length ≤ 128) (s : State) :
    faultCode (absorbAll xs (eInit s)) = .none := by
  obtain ⟨hfit, hzero⟩ := eInit_counts s
  obtain ⟨t, ht, -, -⟩ := absorbAll_counts (xs := xs) hfit (by omega)
  rw [ht, faultCode_ok]

/-! ### The table -/

/-- The row of the table for a command. -/
def commandFault (i : Instr) (s : State) : ErrCode := faultOfWord (opcode i.mnemonic) (i.operand.getD 0x00#8) s

theorem faultCode_startKeyHash (x : Byte) (s : State) : faultCode (startKeyHash x s) = .none := by
  rw [startKeyHash_eq, faultCode_map, faultCode_absorbAll_eInit (by simp)]

theorem faultCode_runOuter (s : State) : faultCode (runOuter s) = .none := by
  rw [runOuter_eq, faultCode_map, faultCode_absorbAll_eInit (by simp)]

/-- M.KEY raises LENGTH only on a byte that joins a long key. -/
theorem faultCode_mKeyBody (x : Byte) (s : State) : faultCode (mKeyBody x s) = commandFault (.mKey x) s := by
  simp only [mKeyBody, faultCode_ite, faultCode_error, faultCode_ok, faultCode_map, faultCode_startKeyHash,
    faultCode_eAbsorb]
  cases hl : s.longkey with
  | false => simp [commandFault, faultOfWord, opcode, Instr.mnemonic, hl]
  | true => simp [commandFault, faultOfWord, opcode, Instr.mnemonic, hl]

/-- The checks of a body are the columns of its row, in the same order. -/
theorem faultCode_bodyOf (i : Instr) (s : State) : faultCode (bodyOf i s) = commandFault i s := by
  cases i with
  | nop => rfl
  | hInit => rfl
  | mInit => rfl
  | hAbsorb x =>
    simp only [bodyOf, hAbsorbBody, faultCode_ite, faultCode_error, faultCode_map, faultCode_eAbsorb]
    rfl
  | hFinal =>
    simp only [bodyOf, hFinalBody, faultCode_ite, faultCode_error, faultCode_ok]
    rfl
  | hRead k =>
    simp only [bodyOf, hReadBody, faultCode_ite, faultCode_error, faultCode_ok, ite_indexInRange]
    rfl
  | mKey x => exact faultCode_mKeyBody x s
  | mKeyEnd =>
    simp only [bodyOf, mKeyEndBody_eq, faultCode_ite, faultCode_error, faultCode_map,
      faultCode_absorbAll_eInit (xs := padBytes (normaliseKey s).kbuf ipadByte) (by simp)]
    rfl
  | mMsg x =>
    simp only [bodyOf, mMsgBody, faultCode_ite, faultCode_error, faultCode_map, faultCode_eAbsorb]
    rfl
  | mFinal =>
    simp only [bodyOf, mFinalBody_eq, faultCode_ite, faultCode_error, faultCode_map, faultCode_runOuter]
    rfl
  | mRead k =>
    simp only [bodyOf, mReadBody, faultCode_ite, faultCode_error, faultCode_ok, ite_indexInRange]
    rfl

/-- A word's row is that of its command; a word that decodes to none is ILLEGAL. -/
theorem faultOfWord_of_decode_ok {w : CmdWord} {i : Instr} (h : decode w = .ok i) (s : State) :
    faultOfWord (opField w) (argField w) s = commandFault i s := by
  obtain ⟨hop, harg⟩ := fields_of_decodeFields h
  rw [hop, harg, commandFault]

theorem noOperand_eq_error {i : Instr} {arg : Byte} {r : Reject} (h : noOperand i arg = .error r) : arg ≠ 0x00#8 := by
  rintro rfl
  cases h

theorem faultOfWord_of_decode_error {w : CmdWord} {r : Reject} (h : decode w = .error r) (s : State) :
    faultOfWord (opField w) (argField w) s = .illegal := by
  unfold decode decodeFields at h
  split at h
  case h_3 | h_5 | h_7 | h_9 | h_11 => cases h
  case h_12 => simp only [faultOfWord, *]
  all_goals
    rename_i hop
    simp only [faultOfWord, hop, if_pos (noOperand_eq_error h)]

/-- Without a fault of its row a command takes effect. -/
theorem exec_takes_effect {i : Instr} {s : State} (hf : s.fault = false) (hc : commandFault i s = .none) :
    ∃ t, bodyOf i s = .ok t ∧ exec i s = .next t := by
  rw [← faultCode_bodyOf] at hc
  rw [exec_eq_runCommand]
  cases hb : bodyOf i s with
  | ok t => exact ⟨t, rfl, runCommand_ok hf hb⟩
  | error c =>
    rw [hb, faultCode_error] at hc
    exact absurd (hc ▸ hb) (bodyOf_ne_error_none i s)

/-- With a code in its row it only records the fault (R183). -/
theorem exec_faults {i : Instr} {s : State} (hf : s.fault = false) (hc : commandFault i s ≠ .none) :
    exec i s = .next (raiseFault (commandFault i s) s) := by
  rw [← faultCode_bodyOf] at hc ⊢
  rw [exec_eq_runCommand]
  exact runCommand_error hf (error_of_faultCode hc)

end Sys2Proof.Machine
end

section
/-! PROOF. What the host sees of a command's next state (`60_exceptions.md` R188): a command that takes effect leaves the
outputs of a state written out from its session, phases and counts, and from a digest byte that a READ may show. With the
fault's code (R181) that settles what a word records, and what two states with different secrets answer. -/

namespace Sys2Proof.Machine

/-! ### The registers behind the outputs -/

/-- Two states that agree in RSP, in the fields of STATUS and at the port. -/
structure SameShown (s t : State) : Prop where
  session : s.session = t.session
  ephase : s.ephase = t.ephase
  mphase : s.mphase = t.mphase
  fault : s.fault = t.fault
  errcode : s.errcode = t.errcode
  rsp : s.rsp = t.rsp
  cmdReady : s.cmdReady = t.cmdReady
  rspValid : s.rspValid = t.rspValid

namespace SameShown

theorem refl (s : State) : SameShown s s := by
  constructor <;> rfl

theorem trans {s t u : State} (h : SameShown s t) (k : SameShown t u) : SameShown s u where
  session := h.session.trans k.session
  ephase := h.ephase.trans k.ephase
  mphase := h.mphase.trans k.mphase
  fault := h.fault.trans k.fault
  errcode := h.errcode.trans k.errcode
  rsp := h.rsp.trans k.rsp
  cmdReady := h.cmdReady.trans k.cmdReady
  rspValid := h.rspValid.trans k.rspValid

theorem symm {s t : State} (h : SameShown s t) : SameShown t s where
  session := h.session.symm
  ephase := h.ephase.symm
  mphase := h.mphase.symm
  fault := h.fault.symm
  errcode := h.errcode.symm
  rsp := h.rsp.symm
  cmdReady := h.cmdReady.symm
  rspValid := h.rspValid.symm

theorem outputs {s t : State} (h : SameShown s t) : s.outputs = t.outputs := by
  simp only [State.outputs, State.status, h.session, h.ephase, h.mphase, h.fault, h.errcode, h.rsp, h.cmdReady,
    h.rspValid]

theorem respond {s t : State} (h : SameShown s t) (v : Byte) : SameShown (respond v s) (respond v t) :=
  { h with rsp := rfl }

end SameShown

/-- Of what is shown, a micro-operation can change the engine's phase alone. -/
theorem EngineFrame.shown {s t : State} (f : EngineFrame s t) {e : EPhase} (he : t.ephase = e) :
    SameShown t { s with ephase := e } :=
  { f with ephase := he }

/-- After E_INIT and a run of absorbed bytes the engine absorbs. -/
theorem absorbAll_eInit_shown {xs : List Byte} {s u : State} (h : absorbAll xs (eInit s) = .ok u) :
    SameShown u { s with ephase := .absorb } :=
  (absorbAll_eInit_frame h).shown (absorbAll_frame h).2

theorem normaliseKey_shown (s : State) :
    SameShown { normaliseKey s with klen := 0#7, longkey := false, ephase := .absorb } { s with ephase := .absorb } := by
  unfold normaliseKey
  split
  · exact { eFinal_frame s with ephase := rfl }
  · constructor <;> rfl

theorem finishInner_shown (s : State) :
    SameShown { finishInner s with ephase := .done } { s with ephase := .done } :=
  { eFinal_frame s with ephase := rfl }

/-! ### What a command shows -/

/-- A state that shows what command i leaves when it takes effect on s. -/
def shownAfter (i : Instr) (s : State) : State :=
  match i with
  | .nop => respond 0x00#8 s
  | .hInit => respond 0x00#8 { s with session := .hash, ephase := .absorb, mphase := .idle }
  | .hAbsorb _ => respond 0x00#8 s
  | .hFinal => respond 0x00#8 { s with ephase := .done }
  | .hRead k => respond (digestByte s.h k.toNat) s
  | .mInit => respond 0x00#8 { s with session := .hmac, ephase := .idle, mphase := .key }
  | .mKey _ =>
    respond 0x00#8 { s with ephase := if s.longkey = false ∧ 64 ≤ s.klen.toNat then .absorb else s.ephase }
  | .mKeyEnd => respond 0x00#8 { s with ephase := .absorb, mphase := .msg }
  | .mMsg _ => respond 0x00#8 s
  | .mFinal => respond 0x00#8 { s with ephase := .done, mphase := .done }
  | .mRead k => respond (digestByte s.h k.toNat) s

theorem shownAfter_fault (i : Instr) (s : State) : (shownAfter i s).fault = s.fault := by
  cases i <;> rfl

theorem shownAfter_errcode (i : Instr) (s : State) : (shownAfter i s).errcode = s.errcode := by
  cases i <;> rfl

theorem eAbsorb_shown {x : Byte} {s u : State} (h : eAbsorb x s = .ok u) : SameShown u s :=
  (eAbsorb_frame h).shown (eAbsorb_ephase h)

/-- M.KEY's three branches: only byte 65 starts the engine. -/
theorem mKeyBody_shown {x : Byte} {s t : State} (h : mKeyBody x s = .ok t) : SameShown t (shownAfter (.mKey x) s) := by
  obtain ⟨-, -, ⟨-, hlt, rfl⟩ | ⟨hl, hle, u, hu, rfl⟩ | ⟨hl, u, hu, rfl⟩⟩ := mKeyBody_ok h
  · rw [shownAfter, if_neg fun hfull => Nat.not_le.mpr hlt hfull.2]
    constructor <;> rfl
  · rw [shownAfter, if_pos ⟨hl, hle⟩]
    exact { absorbAll_eInit_shown hu with rsp := rfl }
  · rw [shownAfter, if_neg fun hshort => Bool.eq_false_iff.mp hshort.1 hl]
    exact (eAbsorb_shown hu).respond _

theorem bodyOf_shown {i : Instr} {s t : State} (h : bodyOf i s = .ok t) : SameShown t (shownAfter i s) := by
  cases i with
  | nop =>
    cases h
    exact .refl _
  | hInit =>
    cases h
    constructor <;> rfl
  | mInit =>
    cases h
    constructor <;> rfl
  | hAbsorb x =>
    obtain ⟨-, -, u, hu, rfl⟩ := hAbsorbBody_ok h
    exact (eAbsorb_shown hu).respond _
  | hFinal =>
    obtain ⟨-, -, rfl⟩ := hFinalBody_ok h
    exact ((eFinal_frame s).shown (eFinal_ephase s)).respond _
  | hRead k =>
    obtain ⟨-, -, -, rfl⟩ := hReadBody_ok h
    exact .refl _
  | mKey x => exact mKeyBody_shown h
  | mKeyEnd =>
    obtain ⟨-, -, u, hu, rfl⟩ := mKeyEndBody_ok h
    have shown := (absorbAll_eInit_shown hu).trans (normaliseKey_shown s)
    exact { shown with mphase := rfl, rsp := rfl }
  | mMsg x =>
    obtain ⟨-, -, u, hu, rfl⟩ := mMsgBody_ok h
    exact (eAbsorb_shown hu).respond _
  | mFinal =>
    obtain ⟨-, -, u, hu, rfl⟩ := mFinalBody_ok h
    have outer := ((absorbAll_eInit_frame hu).trans (eFinal_frame u)).shown (eFinal_ephase u)
    have shown := outer.trans (finishInner_shown s)
    exact { shown with mphase := rfl, rsp := rfl }
  | mRead k =>
    obtain ⟨-, -, -, rfl⟩ := mReadBody_ok h
    exact .refl _

/-- Settles O26: a word that decodes to no command is ILLEGAL; a command whose row holds no code takes effect, which
leaves FAULT and ERRCODE, and one whose row holds a code only records it. -/
theorem wordsFaultExactlyAsTheTableSays : Obligations.WordsFaultExactlyAsTheTableSays := by
  intro w s rest hf hhost
  cases hw : decode w with
  | error r =>
    rw [faultOfWord_of_decode_error hw]
    exact ⟨_, step_of_illegal hw hf hhost, rfl, rfl, fun hnone => absurd hnone (by decide), fun _ => rfl⟩
  | ok i =>
    rw [faultOfWord_of_decode_ok hw]
    obtain ⟨hstep, -, -⟩ := stepRunsTheDecodedCommand w s rest hhost
    by_cases hc : commandFault i s = .none
    · obtain ⟨t, hbody, hexec⟩ := exec_takes_effect (s := { s with host := rest }) hf hc
      have shown := bodyOf_shown hbody
      refine ⟨_, hstep i t hw hexec, rfl, rfl, fun _ => ⟨?fault, ?errcode⟩, fun hne => absurd hc hne⟩
      case fault => exact shown.fault.trans ((shownAfter_fault i _).trans hf)
      case errcode => exact shown.errcode.trans (shownAfter_errcode i _)
    · have hexec := exec_faults (s := { s with host := rest }) hf hc
      exact ⟨_, hstep i _ hw hexec, rfl, rfl, fun hnone => absurd hnone hc, fun _ => rfl⟩

/-! ### Two states with different secrets -/

namespace SameButSecrets

variable {s t : State} (h : SameButSecrets s t)
include h

theorem shown : SameShown s t := { h with }

/-- The table reads no secret. -/
theorem commandFault_eq (i : Instr) : commandFault i s = commandFault i t := by
  simp only [commandFault, faultOfWord, h.cnt, h.bitlen, h.ephase, h.mphase, h.longkey, h.session]

/-- What a command that takes effect shows is made of no secret: a READ takes effect only where H is readable. -/
theorem shownAfter {i : Instr} {u : State} (hok : bodyOf i s = .ok u) :
    SameShown (shownAfter i s) (shownAfter i t) := by
  cases i with
  | nop => exact h.shown.respond _
  | hInit => exact { h.shown with session := rfl, ephase := rfl, mphase := rfl, rsp := rfl }
  | hAbsorb x => exact h.shown.respond _
  | hFinal => exact { h.shown with ephase := rfl, rsp := rfl }
  | hRead k =>
    obtain ⟨hsession, hphase, -, -⟩ := hReadBody_ok hok
    have hh : s.h = t.h := h.readable_h (.inl ⟨hsession, hphase⟩)
    rw [Machine.shownAfter, hh]
    exact h.shown.respond _
  | mInit => exact { h.shown with session := rfl, ephase := rfl, mphase := rfl, rsp := rfl }
  | mKey x =>
    rw [Machine.shownAfter, Machine.shownAfter, h.longkey, h.klen, h.ephase]
    exact { h.shown with ephase := rfl, rsp := rfl }
  | mKeyEnd => exact { h.shown with ephase := rfl, mphase := rfl, rsp := rfl }
  | mMsg x => exact h.shown.respond _
  | mFinal => exact { h.shown with ephase := rfl, mphase := rfl, rsp := rfl }
  | mRead k =>
    obtain ⟨hsession, hphase, -, -⟩ := mReadBody_ok hok
    have hh : s.h = t.h := h.readable_h (.inr ⟨hsession, hphase⟩)
    rw [Machine.shownAfter, hh]
    exact h.shown.respond _

end SameButSecrets

/-- Settles O36: both states are ignored, take effect or fault with one code, and what they then show agrees. -/
theorem outputsRevealNoSecretByte : Obligations.OutputsRevealNoSecretByte := by
  intro i s t h
  cases hf : s.fault with
  | true =>
    have ignored : SameShown (ignoreCommand s) (ignoreCommand t) := { h.shown with rsp := rfl }
    rw [exec_eq_runCommand, exec_eq_runCommand]
    exact ⟨_, _, runCommand_faulted _ hf, runCommand_faulted _ (h.fault ▸ hf), ignored.outputs⟩
  | false =>
    have hf' : t.fault = false := h.fault ▸ hf
    have hcode := h.commandFault_eq i
    by_cases hc : commandFault i s = .none
    · obtain ⟨s', hs, hexec⟩ := exec_takes_effect hf hc
      obtain ⟨t', ht, hexec'⟩ := exec_takes_effect hf' (hcode ▸ hc)
      have effect : SameShown s' t' := ((bodyOf_shown hs).trans (h.shownAfter hs)).trans (bodyOf_shown ht).symm
      exact ⟨s', t', hexec, hexec', effect.outputs⟩
    · have faulting : SameShown (raiseFault (commandFault i s) s) (raiseFault (commandFault i s) t) :=
        { h.shown with fault := rfl, errcode := rfl, rsp := rfl }
      have hexec' := exec_faults hf' (hcode ▸ hc)
      rw [← hcode] at hexec'
      exact ⟨_, _, exec_faults hf hc, hexec', faulting.outputs⟩

end Sys2Proof.Machine
end

section
/-! PROOF. Reset and the host's duties (`70_reset_and_hazards.md` R200, R203): a reset edge abandons whatever is in
flight, the edge after it only makes the block ready, and a broken offer is the offer of some word. -/

namespace Sys2Proof.Machine

/-! ### The reset edge (R200) -/

/-- A reset edge drops the command in flight and takes nothing, whatever is offered. -/
theorem edge_resets {p : Pins} (c : Clocked) (hrst : p.rst = true) :
    edge p c = .next { c with core := resetBlock c.core, inFlight := none, offer := offerAfter p .none } := by
  rw [edge, if_pos hrst]

/-- A block that is idle and not ready takes nothing, whatever is offered. -/
theorem edge_not_ready {p : Pins} {c : Clocked} (hrst : p.rst = false) (hin : c.inFlight = none)
    (hready : c.core.cmdReady = false) :
    edge p c = .next { c with core := idleEdge c.core, offer := offerAfter p c.offer } := by
  simp [edge, hrst, hin, hready]

@[simp] theorem resetBlock_status (s : State) : (resetBlock s).status = 0x0000#16 := by
  have hfields : (resetBlock s).status = State.reset.status := rfl
  rw [hfields]
  decide

@[simp] theorem idleEdge_status (s : State) : (idleEdge s).status = s.status := rfl

/-- Settles O9: the reset edge leaves a block that is not ready, so the next edge takes nothing either. -/
theorem resetEdgeAbandonsTheCommandInProgress : Obligations.ResetEdgeAbandonsTheCommandInProgress := by
  intro p q c hp hq
  refine ⟨_, edge_resets c hp, rfl, rfl, rfl, rfl, resetBlock_status c.core, rfl, ?next⟩
  case next =>
    refine ⟨_, edge_not_ready hq rfl rfl, rfl, rfl, ?_⟩
    rw [idleEdge_status, resetBlock_status]

/-! ### A broken offer (R203) -/

/-- A step on a broken offer takes it off the stream, draws the accepted word, runs it and completes it. -/
theorem step_of_unstable {s : State} {rest : List HostEvent} (h : s.host = .unstable :: rest) :
    step s = completed (runWord (Config.freeCommandWord s.draws) { s with host := rest, draws := s.draws + 1 }) := by
  rw [step, h]

/-- Settles O12: the word is the drawn one. -/
theorem brokenHandshakeAcceptsSomeWord : Obligations.BrokenHandshakeAcceptsSomeWord := by
  intro s rest hhost
  refine ⟨Config.freeCommandWord s.draws, ?_⟩
  rw [step_of_unstable hhost, step_of_command rfl]

end Sys2Proof.Machine
end

section
/-! PROOF. The compressions of a command (`70_reset_and_hazards.md` R207): those of its micro-operations, each of which
draws one free value and writes the datapath. -/

namespace Sys2Proof.Machine

/-- From s to t there are n compressions: n free values are drawn, and without one the datapath keeps its registers. -/
structure Compressions (n : Nat) (s t : State) : Prop where
  draws : t.draws = s.draws + n
  dp : n = 0 → t.dp = s.dp

theorem Compressions.of_pos {n : Nat} {s t : State} (hdraws : t.draws = s.draws + n) (hpos : 0 < n) :
    Compressions n s t :=
  ⟨hdraws, fun hzero => absurd hzero (Nat.ne_of_gt hpos)⟩

/-! ### The micro-operations -/

theorem eAbsorb_compressions {x : Byte} {s t : State} (h : eAbsorb x s = .ok t) :
    Compressions (if s.cnt.toNat = 63 then 1 else 0) s t := by
  obtain ⟨hlt, rfl⟩ | ⟨h63, -, rfl⟩ := eAbsorb_ok_cases h
  · rw [if_neg (Nat.ne_of_lt hlt)]
    exact ⟨rfl, fun _ => rfl⟩
  · rw [if_pos h63]
    exact .of_pos rfl Nat.one_pos

/-- After E_INIT each whole block of the absorbed bytes is compressed. -/
theorem absorbAll_eInit_draws {xs : List Byte} {s u : State} (h : absorbAll xs (eInit s) = .ok u) :
    u.draws = s.draws + xs.length / 64 := by
  have hcounted := absorbAll_draws h
  have hcnt := cnt_toNat_le u
  simp only [eInit_draws, eInit_cnt, BitVec.toNat_ofNat] at hcounted
  omega

theorem eFinal_compressions (s : State) : Compressions (if s.cnt.toNat ≤ 55 then 1 else 2) s (eFinal s) :=
  .of_pos (eFinal_draws s) (by split <;> decide)

theorem normaliseKey_draws (s : State) :
    (normaliseKey s).draws = s.draws + if s.longkey = true then (if s.cnt.toNat ≤ 55 then 1 else 2) else 0 := by
  cases hl : s.longkey with
  | false => rw [normaliseKey_of_short hl, if_neg Bool.false_ne_true, Nat.add_zero]
  | true => rw [normaliseKey_of_long hl, eFinal_draws, if_pos rfl]

/-! ### The commands -/

/-- M.KEY's branches (R154): a kept byte, the 65 bytes that start a long key, and a byte that joins it. -/
theorem mKeyBody_compressions {x : Byte} {s t : State} (h : mKeyBody x s = .ok t) :
    Compressions (compressionsOf (.mKey x) s) s t := by
  rw [compressionsOf]
  obtain ⟨-, -, ⟨hl, hlt, rfl⟩ | ⟨hl, hle, u, hu, rfl⟩ | ⟨hl, u, hu, rfl⟩⟩ := mKeyBody_ok h
  · rw [hl, if_neg Bool.false_ne_true, if_neg (Nat.not_le.mpr hlt)]
    exact ⟨rfl, fun _ => rfl⟩
  · rw [hl, if_neg Bool.false_ne_true, if_pos hle]
    have hdraws := absorbAll_eInit_draws hu
    rw [List.length_append, Vector.length_toList, List.length_singleton] at hdraws
    exact .of_pos hdraws Nat.one_pos
  · rw [if_pos hl]
    exact { eAbsorb_compressions hu with }

/-- M.KEYEND (R155): E_FINAL of a long key, and the inner pad. -/
theorem mKeyEndBody_compressions {s t : State} (h : mKeyEndBody s = .ok t) :
    Compressions (compressionsOf .mKeyEnd s) s t := by
  obtain ⟨-, -, u, hu, rfl⟩ := mKeyEndBody_ok h
  have hpad : u.draws = (normaliseKey s).draws + 1 := by
    rw [absorbAll_eInit_draws hu, padBytes_length]
  rw [normaliseKey_draws] at hpad
  refine .of_pos (hpad.trans ?_) ?_
  · rw [compressionsOf]
    split <;> omega
  · rw [compressionsOf]
    split <;> omega

/-- M.FINAL (R157): E_FINAL of the message, then the outer pad and the inner digest, 84 bytes in two blocks. -/
theorem mFinalBody_compressions {s t : State} (h : mFinalBody s = .ok t) :
    Compressions (compressionsOf .mFinal s) s t := by
  obtain ⟨-, -, u, hu, rfl⟩ := mFinalBody_ok h
  have hlen : (padBytes (finishInner s).kbuf opadByte ++ (finishInner s).idig.toList).length = 84 := by simp
  have houter : (eFinal u).draws = (eFinal s).draws + 2 := by
    rw [eFinal_absorbAll_draws hu, hlen]
    rfl
  rw [eFinal_draws s] at houter
  refine .of_pos (houter.trans ?_) ?_
  · rw [compressionsOf]
    split <;> rfl
  · rw [compressionsOf]
    split <;> decide

/-- A command that takes effect performs the compressions of its row of the table. -/
theorem bodyOf_compressions {i : Instr} {s t : State} (h : bodyOf i s = .ok t) :
    Compressions (compressionsOf i s) s t := by
  cases i with
  | nop | hInit | mInit =>
    cases h
    exact ⟨rfl, fun _ => rfl⟩
  | hAbsorb x =>
    obtain ⟨-, -, u, hu, rfl⟩ := hAbsorbBody_ok h
    exact { eAbsorb_compressions hu with }
  | hFinal =>
    obtain ⟨-, -, rfl⟩ := hFinalBody_ok h
    exact { eFinal_compressions s with }
  | hRead k =>
    obtain ⟨-, -, -, rfl⟩ := hReadBody_ok h
    exact ⟨rfl, fun _ => rfl⟩
  | mKey x => exact mKeyBody_compressions h
  | mKeyEnd => exact mKeyEndBody_compressions h
  | mMsg x =>
    obtain ⟨-, -, u, hu, rfl⟩ := mMsgBody_ok h
    exact { eAbsorb_compressions hu with }
  | mFinal => exact mFinalBody_compressions h
  | mRead k =>
    obtain ⟨-, -, -, rfl⟩ := mReadBody_ok h
    exact ⟨rfl, fun _ => rfl⟩

theorem bodyOf_fault {i : Instr} {s t : State} (h : bodyOf i s = .ok t) : t.fault = s.fault :=
  (bodyOf_shown h).fault.trans (shownAfter_fault i s)

/-- Settles O32: a command that takes effect leaves FAULT at 0 and performs its compressions, none only where the
counter stands; one that faults writes neither the counter nor the datapath. -/
theorem commandsPerformTheirCompressions : Obligations.CommandsPerformTheirCompressions := by
  intro i s t hf h
  rw [exec_eq_runCommand] at h
  obtain ⟨hfault, -⟩ | ⟨-, u, hu, hr⟩ | ⟨-, c, -, hr⟩ := runCommand_cases (bodyOf i) s
  · exact absurd hfault (Bool.eq_false_iff.mp hf)
  · cases hr.symm.trans h
    obtain ⟨hdraws, hdp⟩ := bodyOf_compressions hu
    have heffect : t.fault ≠ true := Bool.eq_false_iff.mp ((bodyOf_fault hu).trans hf)
    exact ⟨fun _ => hdraws, fun hfault => absurd hfault heffect, fun hsame => hdp (by omega)⟩
  · cases hr.symm.trans h
    exact ⟨fun heffect => absurd heffect Bool.true_eq_false.mp, fun _ => rfl, fun _ => rfl⟩

end Sys2Proof.Machine
end
